-- ==== Sys2Proof/Word.lean ====
section
/-! DEFINITION. The bit vectors of the block (00_scope.md R20): words, bytes and the 96-line vectors. -/

namespace Sys2Proof

/-- `bits[31:0]`: a CSR word or an operand field of a request (00_scope.md R17, R20). -/
abbrev Word := BitVec 32

/-- `bits[7:0]`: a priority byte (10_state.md R31). -/
abbrev Byte := BitVec 8

/-- `bits[95:0]`: one bit for each interrupt line (10_state.md R26, R28). -/
abbrev Lines := BitVec 96

end Sys2Proof
end

