-- ==== Sys2Proof/Config.lean ====
section
/-! DEFINITION. What is fixed before the first request (10_state.md R41, 70_reset_and_hazards.md R176), and the free values
of the model. -/

namespace Sys2Proof

/-- The five priority-grouping modes `MODE` (00_scope.md R9). -/
inductive Mode where
  | g16s0
  | g8s2
  | g4s4
  | g2s8
  | g0s16
deriving DecidableEq, Repr

/-- `PRIO_INDEX_MODE`: how an id selects its priority slot (00_scope.md R13). -/
inductive PrioIndexMode where
  | corrected
  | faithful
deriving DecidableEq, Repr

/-- `ENC : MODE -> bits[31:0]`, one value for each mode, as plain data (00_scope.md R14). -/
structure EncTable where
  g16s0 : Word
  g8s2  : Word
  g4s4  : Word
  g2s8  : Word
  g0s16 : Word
deriving DecidableEq, Repr

/-- The configuration record `CFG` (00_scope.md R8 to R15, 70_reset_and_hazards.md R174 and R176). -/
structure Config where
  /-- `NUM_IRQ` (R8) -/
  numIrq : Nat
  /-- `MODE` (R9) -/
  mode : Mode
  /-- `PRIO_INDEX_MODE` (R13) -/
  prioIndexMode : PrioIndexMode
  /-- `ENC` (R14) -/
  enc : EncTable
  /-- the six bases of 20_memory.md R46 -/
  iserBase : Word
  icerBase : Word
  isprBase : Word
  icprBase : Word
  iprBase : Word
  scrAddr : Word
  /-- `ASSUME_CORTEXM_RESET` (R174), off by default -/
  assumeCortexMReset : Bool
deriving DecidableEq, Repr

/-- `BANK_WORDS` (00_scope.md R10). -/
abbrev bankWords : Nat := 3

/-- The default `ENC` of 92_eei_decisions.md D17. PRESUMED by the spec itself (general knowledge): log entry 19, unsafe. -/
def EncTable.initial : EncTable :=
  { g16s0 := 0x05FA0300#32, g8s2 := 0x05FA0400#32, g4s4 := 0x05FA0500#32, g2s8 := 0x05FA0600#32,
    g0s16 := 0x05FA0700#32 }

/-- The configuration that `State.reset` holds: the spec's own defaults for the addresses (20_memory.md R46) and `ENC`
(92_eei_decisions.md D17), and the values of the spec's examples (42_priority_ops.md section 3 and
95_test_vectors.md Program 2) for the three parameters the spec leaves OPEN without a default. DESIGN CHOICE: log entry 1,
unsafe; no statement about all states rests on it. -/
def Config.initial : Config :=
  { numIrq := 68, mode := .g8s2, prioIndexMode := .corrected, enc := EncTable.initial,
    iserBase := 0xE000E100#32, icerBase := 0xE000E180#32, isprBase := 0xE000E200#32,
    icprBase := 0xE000E280#32, iprBase := 0xE000E400#32, scrAddr := 0xE000ED0C#32,
    assumeCortexMReset := false }

/-- Free value: `RDATA` of a response that carries no read data (40_dispatcher.md R89: `draw(bits[31:0])` when not-ok; not
stated when ok). Applied to a fresh number each time: log entries 8 and 9, safe. -/
opaque Config.freeRData : Nat → Word

/-- Free value: what a read of `SCR` returns, a read the block never issues (20_memory.md R52, 93 I8): log entry 10. -/
opaque Config.freeScrRead : Nat → Word

end Sys2Proof
end

