-- ==== Sys2Proof/Machine/Grouping.lean ====
section
/-! DEFINITION. The grouping-mode arithmetic and the packer/unpacker of a priority byte (42_priority_ops.md section 1). -/

namespace Sys2Proof.Machine

open Sys2Proof

/-- `SB(MODE)`, the number of sub-priority bits (R121). -/
def subBits : Mode → Nat
  | .g16s0 => 0
  | .g8s2 => 1
  | .g4s4 => 2
  | .g2s8 => 3
  | .g0s16 => 4

/-- `GB(MODE)`, the number of group bits (R120, R121: `GB + SB = 4`). -/
def groupBits (m : Mode) : Nat :=
  4 - subBits m

/-- `maxGroup = 2^GB - 1` (R121). -/
def maxGroup (m : Mode) : Nat :=
  2 ^ groupBits m - 1

/-- `maxSub = 2^SB - 1` (R121). -/
def maxSub (m : Mode) : Nat :=
  2 ^ subBits m - 1

/-- `GS(MODE) = SB(MODE)` (R121; 90_conflicts.md C4): log entry 21. -/
def groupShift (m : Mode) : Nat :=
  subBits m

/-- `ENC(m)` (00_scope.md R14). -/
def encOf (t : EncTable) : Mode → Word
  | .g16s0 => t.g16s0
  | .g8s2 => t.g8s2
  | .g4s4 => t.g4s4
  | .g2s8 => t.g2s8
  | .g0s16 => t.g0s16

/-- The packer `pack(m, g, s) = u(s) | (u(g) << GS(m))` (R122), at the operands' width. -/
def pack (m : Mode) (g s : Word) : Word :=
  s ||| (g <<< groupShift m)

/-- The field byte `trunc_8(zext_32(v) << 4) & 0xF0` of an 8-bit priority value (R123). -/
def toField (v : Byte) : Byte :=
  ((v.setWidth 32) <<< 4).setWidth 8 &&& 0xF0#8

/-- The unpacker `(zext_32(s) >> 4) & 0xFF` of a slot byte (R124). -/
def fromField (s : Byte) : Word :=
  ((s.setWidth 32) >>> 4) &&& 0xFF#32

/-- `group(m, n) = n >> SB(m)`, a requester's own splitting of a read-back nibble (R125). -/
def splitGroup (m : Mode) (n : Word) : Word :=
  n >>> subBits m

/-- `sub(m, n) = n & (2^SB(m) - 1)` (R125). -/
def splitSub (m : Mode) (n : Word) : Word :=
  n &&& BitVec.ofNat 32 (2 ^ subBits m - 1)

/-- `merge(C, l, byte)`: lane `l` of a four-lane word replaced, the other three lanes kept (R126). -/
def mergeLane (c : Word) (l : Fin 4) (byte : Byte) : Word :=
  (c &&& ~~~(0xFF#32 <<< (8 * l.val))) ||| ((byte.setWidth 32) <<< (8 * l.val))

/-- Lane `l` of a priority word, the bits `8l+7 : 8l` (20_memory.md R49). -/
def laneOf (w : Word) (l : Fin 4) : Byte :=
  w.extractLsb' (8 * l.val) 8

end Sys2Proof.Machine
end

