-- ==== Sys2Proof/Machine/AddrMap.lean ====
section
/-! DEFINITION. The CSR address map (20_memory.md section 1). -/

namespace Sys2Proof.Machine

open Sys2Proof

/-- A control and status register of the block: the word `b` of a bit-register group, the word `w` of the priority file, or
`SCR` (20_memory.md R46). -/
inductive Csr where
  | iser (b : Nat)
  | icer (b : Nat)
  | ispr (b : Nat)
  | icpr (b : Nat)
  | ipr (w : Nat)
  | scr
deriving DecidableEq, Repr

/-- `PRI_WORDS = ceil(NUM_IRQ / 4)` (00_scope.md R16). -/
def priWords (cfg : Config) : Nat :=
  (cfg.numIrq + 3) / 4

/-! The address formulas of R48. Addresses are natural numbers. -/

def iserAddr (cfg : Config) (b : Nat) : Nat := cfg.iserBase.toNat + 4 * b
def icerAddr (cfg : Config) (b : Nat) : Nat := cfg.icerBase.toNat + 4 * b
def isprAddr (cfg : Config) (b : Nat) : Nat := cfg.isprBase.toNat + 4 * b
def icprAddr (cfg : Config) (b : Nat) : Nat := cfg.icprBase.toNat + 4 * b
def iprAddr (cfg : Config) (w : Nat) : Nat := cfg.iprBase.toNat + 4 * w
def scrAddrOf (cfg : Config) : Nat := cfg.scrAddr.toNat

/-- The address of a register (R46). -/
def addrOf (cfg : Config) : Csr → Nat
  | .iser b => iserAddr cfg b
  | .icer b => icerAddr cfg b
  | .ispr b => isprAddr cfg b
  | .icpr b => icprAddr cfg b
  | .ipr w => iprAddr cfg w
  | .scr => scrAddrOf cfg

/-- The registers that R46's table has: three words in each bit-register group, `PRI_WORDS` in the priority file, and `SCR`. -/
def inMap (cfg : Config) : Csr → Bool
  | .iser b => decide (b < bankWords)
  | .icer b => decide (b < bankWords)
  | .ispr b => decide (b < bankWords)
  | .icpr b => decide (b < bankWords)
  | .ipr w => decide (w < priWords cfg)
  | .scr => true

/-- The index of the aligned word at address `a` in a range of `n` words that begins at `base`, if it lies there. -/
def wordIn (base : Word) (n a : Nat) : Option Nat :=
  if base.toNat ≤ a ∧ a < base.toNat + 4 * n ∧ (a - base.toNat) % 4 = 0 then some ((a - base.toNat) / 4) else none

/-- The register at an address, if R46's table has one there. -/
def csrAt (cfg : Config) (a : Nat) : Option Csr :=
  match wordIn cfg.iserBase bankWords a with
  | some b => some (.iser b)
  | none =>
  match wordIn cfg.icerBase bankWords a with
  | some b => some (.icer b)
  | none =>
  match wordIn cfg.isprBase bankWords a with
  | some b => some (.ispr b)
  | none =>
  match wordIn cfg.icprBase bankWords a with
  | some b => some (.icpr b)
  | none =>
  match wordIn cfg.iprBase (priWords cfg) a with
  | some w => some (.ipr w)
  | none =>
  match wordIn cfg.scrAddr 1 a with
  | some _ => some .scr
  | none => none

/-- The six address ranges of R46, each as its first address and its number of words. -/
def csrRanges (cfg : Config) : List (Nat × Nat) :=
  [(cfg.iserBase.toNat, bankWords), (cfg.icerBase.toNat, bankWords), (cfg.isprBase.toNat, bankWords),
   (cfg.icprBase.toNat, bankWords), (cfg.iprBase.toNat, priWords cfg), (cfg.scrAddr.toNat, 1)]

/-- Two address ranges share no address. -/
abbrev RangesApart (r r' : Nat × Nat) : Prop :=
  r.1 + 4 * r.2 ≤ r'.1 ∨ r'.1 + 4 * r'.2 ≤ r.1

end Sys2Proof.Machine
end

