-- ==== Sys2Proof/Syntax.lean ====
section
/-! DEFINITION. The request as four words, the eight operations it names, and the text form of a request
(30_encoding.md R65, R67, R75). -/

namespace Sys2Proof

/-- One request: 128 bits as four 32-bit words (30_encoding.md R65). -/
structure Request where
  /-- word 0, `CTRL` -/
  ctrl : Word
  /-- word 1, `ID` -/
  id : Word
  /-- word 2, `A` -/
  a : Word
  /-- word 3, `B` -/
  b : Word
deriving DecidableEq, Repr

/-- The eight operations with the fields each one uses (30_encoding.md R67); `ov` is the output-location bit of R69. -/
inductive Instr where
  | enableIRQ (id : Word)
  | disableIRQ (id : Word)
  | setPendingIRQ (id : Word)
  | clearPendingIRQ (id : Word)
  | getPendingIRQ (id : Word) (ov : Bool)
  | setPriorityRaw (id priorityByte : Word)
  | setPriorityGrouped (id group sub : Word)
  | getPriority (id : Word) (ov : Bool)
deriving DecidableEq, Repr

/-- One line of the text syntax (30_encoding.md R75): numbers as written, and `null` where the line says so. -/
inductive TextReq where
  | enableIRQ (id : Nat)
  | disableIRQ (id : Nat)
  | setPendingIRQ (id : Nat)
  | clearPendingIRQ (id : Nat)
  | getPendingIRQ (id : Nat) (null : Bool)
  | setPriorityRaw (id priorityByte : Nat)
  | setPriorityGrouped (id group sub : Nat)
  | getPriority (id : Nat) (null : Bool)
deriving DecidableEq, Repr

end Sys2Proof
end

