-- ==== Sys2Proof/Machine/State.lean ====
section
/-! DEFINITION. The state of the machine: the block's registers (10_state.md R25), its configuration, the requesters and
the order in which the agents move; the reasons a step can stop; the state after reset (70_reset_and_hazards.md R173). -/

namespace Sys2Proof.Machine

open Sys2Proof

/-- The next phase of a priority-set request that is between phases (10_state.md R36). -/
inductive Phase where
  | p2
  | p3
deriving DecidableEq, Repr

/-- `PrioSet{w, lane, byte, enc, next, C}`, the in-flight record of a priority-set request (10_state.md R36). -/
structure PrioSet where
  /-- the priority word index -/
  w : Nat
  /-- the byte lane, 0 to 3 -/
  lane : Fin 4
  /-- the field byte to write -/
  byte : Byte
  /-- the `SCR` value to write -/
  enc : Word
  /-- the next phase -/
  next : Phase
  /-- the copy of `PRI_W[w]` taken in phase `P1` -/
  c : Word
deriving DecidableEq, Repr

/-- A response (40_dispatcher.md R89): `STATUS`, `RVALID` and `RDATA`. -/
structure Response where
  /-- `true` is ok, `false` is not-ok -/
  status : Bool
  /-- whether `RDATA` holds a value read -/
  rvalid : Bool
  rdata : Word
deriving DecidableEq, Repr

/-- The error kinds (60_exceptions.md R141), for diagnosis only. -/
inductive ErrKind where
  /-- `E_ID_RANGE` -/
  | idRange
  /-- `E_PRIO_RANGE` -/
  | prioRange
  /-- `E_GROUPSUB` -/
  | groupSub
  /-- `E_NULL_OUT` -/
  | nullOut
  /-- `E_RESERVED` -/
  | reserved
deriving DecidableEq, Repr

/-- A requester (20_memory.md R57) and its in-flight record `IF[r]`. -/
structure Requester where
  /-- its remaining requests; the head is the one outstanding (40_dispatcher.md R88) -/
  queue : List Request
  /-- `IF[r]` (10_state.md R36) -/
  inflight : Option PrioSet
  /-- the responses delivered to it, oldest first (40_dispatcher.md R89, R91) -/
  responses : List Response
  /-- its output location (10_state.md R39, 40_dispatcher.md R89): log entry 7 -/
  out : Word
deriving DecidableEq, Repr

/-- A requester that has presented nothing and received nothing. -/
def Requester.idle : Requester :=
  { queue := [], inflight := none, responses := [], out := 0#32 }

/-- The environment events (20_memory.md R58), one for each line `i < 96`. -/
inductive EnvEvent where
  /-- `EnvSetPending(i)` -/
  | setPending (i : Fin 96)
  /-- `EnvClearPending(i)` -/
  | clearPending (i : Fin 96)
deriving DecidableEq, Repr

/-- Whose turn a step is: the environment's, or that of the block for one requester's next phase (20_memory.md R59). -/
inductive Turn where
  | env (e : EnvEvent)
  | run (r : Nat)
deriving DecidableEq, Repr

/-- The machine. -/
structure State where
  /-- `CFG`: never changed by a step (70_reset_and_hazards.md R176): log entry 1 -/
  cfg : Config
  /-- `EN[95:0]` (10_state.md R26) -/
  en : Lines
  /-- `PEND[95:0]` (10_state.md R28) -/
  pend : Lines
  /-- `PRI_B[k]`, byte `k` at index `k` (10_state.md R31): log entry 17 -/
  pri : List Byte
  /-- `SCR` (10_state.md R34) -/
  scr : Word
  /-- the requesters by number, those that are not idle: log entry 6 -/
  requesters : List (Nat × Requester)
  /-- the model's own: the requester whose phase runs: log entry 6 -/
  cur : Nat
  /-- the model's own: whose turn the next steps are, in order (20_memory.md R59, R60): log entry 4 -/
  schedule : List Turn
  /-- the model's own: how many free values have been drawn: log entry 11 -/
  draws : Nat
  /-- the model's own: the kind the latest `FAIL` recorded, for diagnosis only (60_exceptions.md R141): log entry 12 -/
  diag : Option ErrKind
deriving DecidableEq, Repr

/-- Why the machine stops with a fault. -/
inductive Fault where
  /-- Raised by a CSR access at an address where 20_memory.md R46 has no register. The spec says the block reaches no such
  address (R47), and no step from a legal configuration does. Safe: log entry 13. -/
  | unmapped (addr : Nat)
deriving DecidableEq, Repr

/-- Why a step has no meaning. -/
inductive Refusal where
  /-- Raised by an arm of `exec` whose instruction has no meaning yet. Safe. No arm raises it. -/
  | notModelled (mnemonic : String)
  /-- Raised by `step` when the configuration is outside the ranges of 70_reset_and_hazards.md R176: "no run exists for it".
  Safe: log entry 14. -/
  | illegalConfig
deriving DecidableEq, Repr

/-- The reset draws (70_reset_and_hazards.md R173): the values that reset leaves open. -/
structure ResetDraw where
  en : Lines
  pend : Lines
  /-- the nibble of byte `k` at index `k`; a byte beyond the list draws 0 -/
  nibbles : List (BitVec 4)
  scr : Word
deriving DecidableEq, Repr

/-- The draws of `State.reset`: all zero. DESIGN CHOICE, unsafe: log entry 2. -/
def ResetDraw.zero : ResetDraw :=
  { en := 0#96, pend := 0#96, nibbles := [], scr := 0#32 }

/-- The values that the switch `ASSUME_CORTEXM_RESET` sets in place of the draws (70_reset_and_hazards.md R174). PRESUMED by
the spec itself, unsafe: log entry 3. -/
def ResetDraw.cortexM : ResetDraw :=
  { en := 0#96, pend := 0#96, nibbles := [], scr := 0xFA050000#32 }

/-- The draws that a configuration resets with: the given ones, or those of the switch where it is on (R174). -/
def ResetDraw.effective (cfg : Config) (d : ResetDraw) : ResetDraw :=
  if cfg.assumeCortexMReset then ResetDraw.cortexM else d

/-- The state after reset, for every configuration and every draw (70_reset_and_hazards.md R173). -/
def State.resetFrom (cfg : Config) (d : ResetDraw) : State :=
  { cfg := cfg
    en := (d.effective cfg).en
    pend := (d.effective cfg).pend
    pri := (List.range (4 * priWords cfg)).map fun k => ((d.effective cfg).nibbles.getD k 0#4) ++ 0#4
    scr := (d.effective cfg).scr
    requesters := []
    cur := 0
    schedule := []
    draws := 0
    diag := none }

/-- The machine right after reset: the spec states no values but the low nibbles and `IF[r]`, so the configuration is
`Config.initial` (log entry 1) and the draws are zero (log entry 2). DESIGN CHOICE, unsafe. -/
def State.reset : State :=
  State.resetFrom Config.initial ResetDraw.zero

end Sys2Proof.Machine
end

