-- ==== Sys2Proof/Machine/Ops.lean ====
section
/-! DEFINITION. The named operations: the table of requesters, the CSR accesses (20_memory.md R52, R53), the responses
(40_dispatcher.md R90) and the phases of a priority write (42_priority_ops.md R126). The block takes no exception
(60_exceptions.md R140, R146, R147): `failWith`, the spec's `FAIL(kind)`, stands in its place (00_scope.md R23, R24). -/

namespace Sys2Proof.Machine

open Sys2Proof

/-- The outcome of a meaning. -/
abbrev Result := Host.Outcome State Fault Refusal

/-! ### The table of requesters -/

/-- The requester `r`; one that the table does not list is idle. -/
def lookupReq : List (Nat × Requester) → Nat → Requester
  | [], _ => Requester.idle
  | (k, q) :: rest, r => if k = r then q else lookupReq rest r

/-- The table with the requester `r` replaced, kept in its canonical form: numbers strictly rising, none idle. -/
def insertReq (r : Nat) (q : Requester) : List (Nat × Requester) → List (Nat × Requester)
  | [] => if q = Requester.idle then [] else [(r, q)]
  | (k, p) :: rest =>
    if r < k then (if q = Requester.idle then (k, p) :: rest else (r, q) :: (k, p) :: rest)
    else if r = k then (if q = Requester.idle then rest else (r, q) :: rest)
    else (k, p) :: insertReq r q rest

/-- Requester `r`. -/
def State.requester (s : State) (r : Nat) : Requester :=
  lookupReq s.requesters r

/-- The state with requester `r` replaced. -/
def State.setRequester (s : State) (r : Nat) (q : Requester) : State :=
  { s with requesters := insertReq r q s.requesters }

/-- The requester whose phase runs. -/
def State.me (s : State) : Requester :=
  s.requester s.cur

/-! ### The word views of the bit-register state and of the priority file -/

/-- `EN_W[b] = EN[32b+31 : 32b]`, and the same for `PEND` (10_state.md R26, R28). -/
def lineWord (v : Lines) (b : Nat) : Word :=
  v.extractLsb' (32 * b) 32

/-- The 96-bit vector with its word `b` replaced. -/
def setLineWord (v : Lines) (b : Nat) (x : Word) : Lines :=
  (v &&& ~~~((BitVec.allOnes 32).setWidth 96 <<< (32 * b))) ||| (x.setWidth 96 <<< (32 * b))

/-- `PRI_B[k]` (10_state.md R31). -/
def State.priByte (s : State) (k : Nat) : Byte :=
  s.pri.getD k 0#8

/-- `PRI_W[w] = PRI_B[4w+3] ++ PRI_B[4w+2] ++ PRI_B[4w+1] ++ PRI_B[4w]` (10_state.md R31). -/
def State.priWord (s : State) (w : Nat) : Word :=
  s.priByte (4 * w + 3) ++ s.priByte (4 * w + 2) ++ s.priByte (4 * w + 1) ++ s.priByte (4 * w)

/-- The priority file with its word `w` replaced, lane by lane (20_memory.md R49). -/
def setPriWord (pri : List Byte) (w : Nat) (v : Word) : List Byte :=
  (((pri.set (4 * w) (laneOf v 0)).set (4 * w + 1) (laneOf v 1)).set (4 * w + 2) (laneOf v 2)).set
    (4 * w + 3) (laneOf v 3)

/-- The byte of the priority file at an address: `PRI_B[k]` is at `IPR_BASE + k` (20_memory.md R49). The block itself never
makes a byte access (R51). -/
def State.iprByteAt (s : State) (a : Nat) : Option Byte :=
  if s.cfg.iprBase.toNat ≤ a ∧ a < s.cfg.iprBase.toNat + 4 * priWords s.cfg then
    some (s.priByte (a - s.cfg.iprBase.toNat))
  else none

/-! ### CSR accesses -/

/-- What a read of each register returns (20_memory.md R52); `d` is the value drawn for a read of `SCR`, which the block
never issues. -/
def readReg (s : State) (d : Word) : Csr → Word
  | .iser b => lineWord s.en b
  | .icer b => lineWord s.en b
  | .ispr b => lineWord s.pend b
  | .icpr b => lineWord s.pend b
  | .ipr w => s.priWord w
  | .scr => d

/-- What a write of each register does (20_memory.md R53). -/
def writeReg (s : State) (v : Word) : Csr → State
  | .iser b => { s with en := setLineWord s.en b (lineWord s.en b ||| v) }
  | .icer b => { s with en := setLineWord s.en b (lineWord s.en b &&& ~~~v) }
  | .ispr b => { s with pend := setLineWord s.pend b (lineWord s.pend b ||| v) }
  | .icpr b => { s with pend := setLineWord s.pend b (lineWord s.pend b &&& ~~~v) }
  | .ipr w => { s with pri := setPriWord s.pri w (v &&& 0xF0F0F0F0#32) }
  | .scr => { s with scr := v }

/-- `CSR.read(a)` (20_memory.md R52): the value read, or `none` where no register is. It changes no state. -/
def csrRead (s : State) (a : Nat) (d : Word) : Option Word :=
  (csrAt s.cfg a).map (readReg s d)

/-- `CSR.write(a, v)` (20_memory.md R53): the state after it, or `none` where no register is. -/
def csrWrite (s : State) (a : Nat) (v : Word) : Option State :=
  (csrAt s.cfg a).map (writeReg s v)

/-- A read access inside a phase; an address with no register faults (log entry 13). -/
def loadCsr (a : Nat) (s : State) (k : Word → Result) : Result :=
  match csrRead s a (Config.freeScrRead s.draws) with
  | some v => k v
  | none => .fault (.unmapped a)

/-- A write access inside a phase; an address with no register faults (log entry 13). -/
def storeCsr (a : Nat) (v : Word) (s : State) (k : State → Result) : Result :=
  match csrWrite s a v with
  | some s' => k s'
  | none => .fault (.unmapped a)

/-! ### Responses -/

/-- What a requester does with a response (40_dispatcher.md R89): it moves on to its next request, and writes `RDATA` to
its output location only when `STATUS = 1` and `RVALID = 1`. The request has left no in-flight record, so none is kept by
the delivery of `P3` (42_priority_ops.md R126). -/
def Requester.receive (q : Requester) (resp : Response) (inflight : Option PrioSet) : Requester :=
  { queue := q.queue.tail
    inflight := inflight
    responses := q.responses ++ [resp]
    out := if resp.status && resp.rvalid then resp.rdata else q.out }

/-- Deliver a response to the current requester; its in-flight record becomes `inflight`. -/
def deliver (resp : Response) (inflight : Option PrioSet) (s : State) : State :=
  s.setRequester s.cur (s.me.receive resp inflight)

/-- `respond(OK)` (40_dispatcher.md R90). Its `RDATA` is not stated: a free value, log entry 9. -/
def respondOk (s : State) : State :=
  { deliver { status := true, rvalid := false, rdata := Config.freeRData s.draws } s.me.inflight s with
    draws := s.draws + 1 }

/-- `respond(OK)` of a priority-set request, which also clears `IF[r]` (42_priority_ops.md R126, `P3`). -/
def respondOkClearing (s : State) : State :=
  { deliver { status := true, rvalid := false, rdata := Config.freeRData s.draws } none s with
    draws := s.draws + 1 }

/-- `respond(OK, v)` (40_dispatcher.md R90). -/
def respondData (v : Word) (s : State) : State :=
  deliver { status := true, rvalid := true, rdata := v } s.me.inflight s

/-- `respond(NOTOK)` (40_dispatcher.md R90). Its `RDATA` is a draw (R89): a free value, log entry 8. -/
def respondNotOk (s : State) : State :=
  { deliver { status := false, rvalid := false, rdata := Config.freeRData s.draws } s.me.inflight s with
    draws := s.draws + 1 }

/-- `FAIL(kind)` (00_scope.md R24): `respond(NOTOK)` with no state change; the kind is recorded for diagnosis only. -/
def failWith (kind : ErrKind) (s : State) : State :=
  { respondNotOk s with diag := some kind }

/-! ### The priority write sequence (42_priority_ops.md R126) -/

/-- `IF[r] <- x` for the current requester. -/
def setInflight (x : Option PrioSet) (s : State) : State :=
  s.setRequester s.cur { s.me with inflight := x }

/-- Phase `P1` of `PrioWrite`: read `IPR(w)` and make the in-flight record. -/
def prioP1 (w : Nat) (lane : Fin 4) (byte : Byte) (enc : Word) (s : State) : Result :=
  loadCsr (iprAddr s.cfg w) s fun c =>
    .next (setInflight (some { w := w, lane := lane, byte := byte, enc := enc, next := .p2, c := c }) s)

/-- Phase `P2`: write the merged word. -/
def prioP2 (p : PrioSet) (s : State) : Result :=
  storeCsr (iprAddr s.cfg p.w) (mergeLane p.c p.lane p.byte) s fun s' =>
    .next (setInflight (some { p with next := .p3 }) s')

/-- Phase `P3`: write `SCR`, clear the in-flight record and answer ok. -/
def prioP3 (p : PrioSet) (s : State) : Result :=
  storeCsr (scrAddrOf s.cfg) p.enc s fun s' => .next (respondOkClearing s')

/-- The phase that the in-flight record says is next. -/
def prioContinue (p : PrioSet) (s : State) : Result :=
  match p.next with
  | .p2 => prioP2 p s
  | .p3 => prioP3 p s

/-! ### Environment events (20_memory.md R58) -/

/-- One environment step: it changes one bit of `PEND` and nothing else. -/
def applyEnv (e : EnvEvent) (s : State) : State :=
  match e with
  | .setPending i => { s with pend := s.pend ||| BitVec.twoPow 96 i.val }
  | .clearPending i => { s with pend := s.pend &&& ~~~(BitVec.twoPow 96 i.val) }

/-! ### Whose turn it is -/

/-- The lowest-numbered requester with a request outstanding. -/
def firstActive : List (Nat × Requester) → Option Nat
  | [] => none
  | (r, q) :: rest => if q.queue.isEmpty then firstActive rest else some r

/-- The agent that moves next (20_memory.md R59): the schedule's head; when the schedule is used up, the lowest-numbered
requester with a request outstanding; none when the run has ended (40_dispatcher.md R91). DESIGN CHOICE: log entry 4. -/
def State.turn (s : State) : Option Turn :=
  match s.schedule with
  | t :: _ => some t
  | [] => (firstActive s.requesters).map .run

/-- The state in which the turn of requester `r` begins: the schedule's entry is used up and `r` is the current one. -/
def State.beginRun (s : State) (r : Nat) : State :=
  { s with schedule := s.schedule.tail, cur := r }

/-- The request outstanding of the current requester (40_dispatcher.md R88). -/
def State.outstanding (s : State) : Option Request :=
  s.me.queue.head?

end Sys2Proof.Machine
end

