-- ==== Sys2Proof/Machine/Operands.lean ====
section
/-! DEFINITION. The validation predicates (40_dispatcher.md R80) and the register bank indexer (R83, R84). -/

namespace Sys2Proof.Machine

open Sys2Proof

/-! ### Validation: pure functions of the operands and the configuration (R81) -/

/-- `idBankOK`: `u(ID) < 96`. -/
def idBankOK (id : Word) : Bool :=
  decide (id.toNat < 96)

/-- `idPrioOK`: `u(ID) < NUM_IRQ`. -/
def idPrioOK (cfg : Config) (id : Word) : Bool :=
  decide (id.toNat < cfg.numIrq)

/-- `rawOK`: `u(A) <= 255`, the bound being `NVIC_MAX_PRIORITY` (00_scope.md R11). -/
def rawOK (a : Word) : Bool :=
  decide (a.toNat ≤ 255)

/-- `gsOK`: `u(A) <= maxGroup(MODE)` and `u(B) <= maxSub(MODE)`. -/
def gsOK (m : Mode) (g s : Word) : Bool :=
  decide (g.toNat ≤ maxGroup m) && decide (s.toNat ≤ maxSub m)

/-- `outOK`: `OV = 1`. -/
def outOK (ov : Bool) : Bool :=
  ov

/-! ### The indexer -/

/-- `bank(ID) = u(ID) div 32` (R83). -/
def bank (id : Word) : Nat :=
  id.toNat / 32

/-- `bitpos(ID) = u(ID) mod 32` (R83). -/
def bitpos (id : Word) : Nat :=
  id.toNat % 32

/-- `bitmask(ID) = 1 << bitpos(ID)` (R83). -/
def bitmask (id : Word) : Word :=
  1#32 <<< bitpos id

/-- `pword(ID) = u(ID) div 4` (R84). -/
def pword (id : Word) : Nat :=
  id.toNat / 4

/-- `plane(ID)`: `u(ID) mod 4` in `Corrected` mode, 0 in `Faithful` mode (R84). -/
def plane (m : PrioIndexMode) (id : Word) : Fin 4 :=
  match m with
  | .corrected => ⟨id.toNat % 4, Nat.mod_lt _ (by decide)⟩
  | .faithful => 0

/-- `slot(ID) = 4*pword(ID) + plane(ID)` (R84). -/
def slot (m : PrioIndexMode) (id : Word) : Nat :=
  4 * pword id + (plane m id).val

end Sys2Proof.Machine
end

