-- ==== Sys2Proof/Machine/Flags.lean ====
section
/-! DEFINITION. The block has no flags (10_state.md R40): "The status of a response is the only flag-like value". This file
says, as a pure function of the operation and the configuration, which check fails first (40_dispatcher.md R80, R81;
60_exceptions.md R143); the status of the response is ok exactly when none does. -/

namespace Sys2Proof.Machine

open Sys2Proof

/-- The first failing check of an operation, in the order of R80's table. -/
def firstFailure (cfg : Config) : Instr → Option ErrKind
  | .enableIRQ id => if idBankOK id then none else some .idRange
  | .disableIRQ id => if idBankOK id then none else some .idRange
  | .setPendingIRQ id => if idBankOK id then none else some .idRange
  | .clearPendingIRQ id => if idBankOK id then none else some .idRange
  | .getPendingIRQ id ov =>
    if idBankOK id then (if outOK ov then none else some .nullOut) else some .idRange
  | .setPriorityRaw id p =>
    if idPrioOK cfg id then (if rawOK p then none else some .prioRange) else some .idRange
  | .setPriorityGrouped id g s =>
    if gsOK cfg.mode g s then (if idPrioOK cfg id then none else some .idRange) else some .groupSub
  | .getPriority id ov =>
    if idPrioOK cfg id then (if outOK ov then none else some .nullOut) else some .idRange

/-- The request is valid: its predicates all hold (R80). -/
def valid (cfg : Config) (i : Instr) : Bool :=
  (firstFailure cfg i).isNone

end Sys2Proof.Machine
end

