-- ==== Sys2Proof/Machine/Bank.lean ====
section
/-! DEFINITION. The five bank operations (41_bank_ops.md R100 to R104), each one phase. -/

namespace Sys2Proof.Machine

open Sys2Proof

/-- One W1S or W1C write of the id's own bit at the register address `addr`, answered ok: the shape of R100 to R103. -/
def bankWrite (addr : Config → Nat → Nat) (id : Word) (s : State) : Result :=
  if idBankOK id then storeCsr (addr s.cfg (bank id)) (bitmask id) s fun s' => .next (respondOk s')
  else .next (failWith .idRange s)

/-- `EnableIRQ id` (R100). -/
def execEnableIRQ (id : Word) (s : State) : Result :=
  bankWrite iserAddr id s

/-- `DisableIRQ id` (R101). -/
def execDisableIRQ (id : Word) (s : State) : Result :=
  bankWrite icerAddr id s

/-- `SetPendingIRQ id` (R102). -/
def execSetPendingIRQ (id : Word) (s : State) : Result :=
  bankWrite isprAddr id s

/-- `ClearPendingIRQ id` (R103). -/
def execClearPendingIRQ (id : Word) (s : State) : Result :=
  bankWrite icprAddr id s

/-- `GetPendingIRQ id` (R104): `RDATA` is the pending bit, 0 or 1. -/
def execGetPendingIRQ (id : Word) (ov : Bool) (s : State) : Result :=
  if idBankOK id then
    if outOK ov then
      loadCsr (isprAddr s.cfg (bank id)) s fun word =>
        .next (respondData ((BitVec.ofBool (word.getLsbD (bitpos id))).setWidth 32) s)
    else .next (failWith .nullOut s)
  else .next (failWith .idRange s)

end Sys2Proof.Machine
end

