-- ==== Sys2Proof/Machine/Priority.lean ====
section
/-! DEFINITION. The three priority operations (42_priority_ops.md R127 to R129). A priority set runs as three phases
(R126; 20_memory.md R59): each execution of it is its next phase, which the current requester's in-flight record names. -/

namespace Sys2Proof.Machine

open Sys2Proof

/-- `PrioWrite(r, ID, byte, enc)` begins: phase `P1` at the id's word and lane (R126). -/
def prioBegin (id : Word) (byte : Byte) (enc : Word) (s : State) : Result :=
  prioP1 (pword id) (plane s.cfg.prioIndexMode id) byte enc s

/-- `SetPriorityRaw id, priorityByte` (R127). -/
def execSetPriorityRaw (id p : Word) (s : State) : Result :=
  match s.me.inflight with
  | some r => prioContinue r s
  | none =>
    if idPrioOK s.cfg id then
      if rawOK p then prioBegin id (toField (p.setWidth 8)) (encOf s.cfg.enc .g0s16) s
      else .next (failWith .prioRange s)
    else .next (failWith .idRange s)

/-- `SetPriorityGrouped id, group, sub` (R128). -/
def execSetPriorityGrouped (id g sub : Word) (s : State) : Result :=
  match s.me.inflight with
  | some r => prioContinue r s
  | none =>
    if gsOK s.cfg.mode g sub then
      if idPrioOK s.cfg id then
        prioBegin id (toField ((pack s.cfg.mode g sub).setWidth 8)) (encOf s.cfg.enc s.cfg.mode) s
      else .next (failWith .idRange s)
    else .next (failWith .groupSub s)

/-- `GetPriority id` (R129): `RDATA` is the slot's nibble. -/
def execGetPriority (id : Word) (ov : Bool) (s : State) : Result :=
  if idPrioOK s.cfg id then
    if outOK ov then
      loadCsr (iprAddr s.cfg (pword id)) s fun w =>
        .next (respondData (fromField (laneOf w (plane s.cfg.prioIndexMode id))) s)
    else .next (failWith .nullOut s)
  else .next (failWith .idRange s)

end Sys2Proof.Machine
end

