-- ==== Sys2Proof/Machine/Dispatch.lean ====
section
/-! DEFINITION. The dispatcher (40_dispatcher.md R87): one arm per operation. -/

namespace Sys2Proof.Machine

open Sys2Proof

/-- The next phase of the operation `i`, requested by the current requester. -/
def exec (i : Instr) (s : State) : Host.Outcome State Fault Refusal :=
  match i with
  | .enableIRQ id => Sys2Proof.Machine.execEnableIRQ id s
  | .disableIRQ id => Sys2Proof.Machine.execDisableIRQ id s
  | .setPendingIRQ id => Sys2Proof.Machine.execSetPendingIRQ id s
  | .clearPendingIRQ id => Sys2Proof.Machine.execClearPendingIRQ id s
  | .getPendingIRQ id ov => Sys2Proof.Machine.execGetPendingIRQ id ov s
  | .setPriorityRaw id p => Sys2Proof.Machine.execSetPriorityRaw id p s
  | .setPriorityGrouped id g sub => Sys2Proof.Machine.execSetPriorityGrouped id g sub s
  | .getPriority id ov => Sys2Proof.Machine.execGetPriority id ov s

end Sys2Proof.Machine
end

