-- ==== Sys2Proof/Decode.lean ====
section
/-! DEFINITION. Decoding of a request and the encoder (30_encoding.md R65 to R73). -/

namespace Sys2Proof

/-! ### The request as one number of 128 bits (R65) -/

/-- The request whose 128 bits are `v`: `CTRL` in bits 31:0, `ID` in 63:32, `A` in 95:64, `B` in 127:96. -/
def Request.ofBits (v : BitVec 128) : Request :=
  { ctrl := v.extractLsb' 0 32, id := v.extractLsb' 32 32, a := v.extractLsb' 64 32, b := v.extractLsb' 96 32 }

/-- The 128 bits of a request. -/
def Request.bits (q : Request) : BitVec 128 :=
  q.b ++ q.a ++ q.id ++ q.ctrl

/-! ### The fields of `CTRL` (R66) -/

/-- `RSV`, bits 31:4. -/
def Request.rsv (q : Request) : BitVec 28 :=
  q.ctrl.extractLsb' 4 28

/-- `OV`, bit 3. -/
def Request.ov (q : Request) : Bool :=
  q.ctrl.getLsbD 3

/-- `ctrlOK` (40_dispatcher.md R80): `RSV` is zero. -/
def Request.ctrlOK (q : Request) : Bool :=
  q.rsv == 0#28

/-- Why a request does not decode. -/
inductive DecodeError where
  /-- `RSV` is not zero (R72) -/
  | reservedBits
deriving DecidableEq, Repr

/-- The operation that `OP`, the bits 2, 1 and 0 of `CTRL`, names (R67). All eight values are assigned. -/
def Request.operation (q : Request) : Instr :=
  match q.ctrl.getLsbD 2, q.ctrl.getLsbD 1, q.ctrl.getLsbD 0 with
  | false, false, false => .enableIRQ q.id
  | false, false, true  => .disableIRQ q.id
  | false, true,  false => .setPendingIRQ q.id
  | false, true,  true  => .clearPendingIRQ q.id
  | true,  false, false => .getPendingIRQ q.id q.ov
  | true,  false, true  => .setPriorityRaw q.id q.a
  | true,  true,  false => .setPriorityGrouped q.id q.a q.b
  | true,  true,  true  => .getPriority q.id q.ov

/-- Decoding is total (R73): a request is illegal when `RSV` is not zero (R72), else it is the operation `OP` names. -/
def decode (q : Request) : Except DecodeError Instr :=
  if q.ctrlOK then .ok q.operation else .error .reservedBits

/-! ### The encoder -/

/-- The `OP` value of an operation (R67). -/
def Instr.opcode : Instr → BitVec 3
  | .enableIRQ _ => 0b000#3
  | .disableIRQ _ => 0b001#3
  | .setPendingIRQ _ => 0b010#3
  | .clearPendingIRQ _ => 0b011#3
  | .getPendingIRQ _ _ => 0b100#3
  | .setPriorityRaw _ _ => 0b101#3
  | .setPriorityGrouped _ _ _ => 0b110#3
  | .getPriority _ _ => 0b111#3

/-- `CTRL` with `RSV` zero, as in R66. -/
def ctrlWord (ov : Bool) (op : BitVec 3) : Word :=
  0#28 ++ BitVec.ofBool ov ++ op

/-- The request of an operation: unused fields are zero (R75, R77). -/
def encode (i : Instr) : Request :=
  match i with
  | .enableIRQ id => { ctrl := ctrlWord false i.opcode, id := id, a := 0#32, b := 0#32 }
  | .disableIRQ id => { ctrl := ctrlWord false i.opcode, id := id, a := 0#32, b := 0#32 }
  | .setPendingIRQ id => { ctrl := ctrlWord false i.opcode, id := id, a := 0#32, b := 0#32 }
  | .clearPendingIRQ id => { ctrl := ctrlWord false i.opcode, id := id, a := 0#32, b := 0#32 }
  | .getPendingIRQ id ov => { ctrl := ctrlWord ov i.opcode, id := id, a := 0#32, b := 0#32 }
  | .setPriorityRaw id p => { ctrl := ctrlWord false i.opcode, id := id, a := p, b := 0#32 }
  | .setPriorityGrouped id g s => { ctrl := ctrlWord false i.opcode, id := id, a := g, b := s }
  | .getPriority id ov => { ctrl := ctrlWord ov i.opcode, id := id, a := 0#32, b := 0#32 }

/-- The request that the table's numbering gives: bit 0 of `w` is the least significant bit of `CTRL`, and every bit above
`nbits` is 0. -/
def tableRequest (nbits w : Nat) : Request :=
  Request.ofBits (BitVec.ofNat 128 (w % 2 ^ nbits))

/-- The instruction the decoder reads from the request whose bits are `w`. -/
def decodeTableWord (nbits w : Nat) : Option Instr :=
  match decode (tableRequest nbits w) with
  | .ok i => some i
  | .error _ => none

end Sys2Proof
end

