-- ==== Sys2Proof/WellFormed.lean ====
section
/-! DEFINITION. The checks on what is given to the block: the configuration, a request, and a line of text. -/

namespace Sys2Proof

open Sys2Proof.Machine

/-- Every instruction is well formed: each operand field is taken whole as 32 bits, and a value that the operation does not
accept is a valid request that is answered not-ok (30_encoding.md R68, 40_dispatcher.md R82). -/
def Instr.wellFormed : Instr → Bool
  | .enableIRQ _ => true
  | .disableIRQ _ => true
  | .setPendingIRQ _ => true
  | .clearPendingIRQ _ => true
  | .getPendingIRQ _ _ => true
  | .setPriorityRaw _ _ => true
  | .setPriorityGrouped _ _ _ => true
  | .getPriority _ _ => true

/-- A request is well formed when its reserved bits are zero (30_encoding.md R72). -/
def Request.wellFormed (q : Request) : Bool :=
  q.ctrlOK

/-- `NUM_IRQ` is in `1..96` (00_scope.md R8). -/
def Config.numIrqLegal (cfg : Config) : Bool :=
  decide (1 ≤ cfg.numIrq) && decide (cfg.numIrq ≤ 96)

/-- Every base is a multiple of 4 (20_memory.md R46). -/
def Config.basesAligned (cfg : Config) : Bool :=
  (csrRanges cfg).all fun r => r.1 % 4 == 0

/-- Every address is below `2^32` (20_memory.md R46). -/
def Config.addressesFit (cfg : Config) : Bool :=
  (csrRanges cfg).all fun r => decide (r.1 + 4 * r.2 ≤ 2 ^ 32)

/-- The six address ranges are pairwise disjoint (20_memory.md R46). -/
def Config.rangesDisjoint (cfg : Config) : Bool :=
  decide ((csrRanges cfg).Pairwise RangesApart)

/-- The configurations that the spec admits (70_reset_and_hazards.md R176); `MODE` and `PRIO_INDEX_MODE` have no other
values. -/
def Config.legal (cfg : Config) : Bool :=
  cfg.numIrqLegal && cfg.basesAligned && cfg.addressesFit && cfg.rangesDisjoint

/-- A number of a text line fits its 32-bit field (30_encoding.md R68). -/
def fitsWord (n : Nat) : Bool :=
  decide (n < 2 ^ 32)

/-- Every number of a text line fits its field. -/
def TextReq.wellFormed : TextReq → Bool
  | .enableIRQ id => fitsWord id
  | .disableIRQ id => fitsWord id
  | .setPendingIRQ id => fitsWord id
  | .clearPendingIRQ id => fitsWord id
  | .getPendingIRQ id _ => fitsWord id
  | .setPriorityRaw id p => fitsWord id && fitsWord p
  | .setPriorityGrouped id g s => fitsWord id && fitsWord g && fitsWord s
  | .getPriority id _ => fitsWord id

end Sys2Proof
end

