-- ==== Sys2Proof/Machine/Step.lean ====
section
/-! DEFINITION. One step of the machine: one environment event or one phase of one request (20_memory.md R59, R60). -/

namespace Sys2Proof.Machine

open Sys2Proof

/-- One phase of the outstanding request of the current requester (40_dispatcher.md R79, R87): an illegal request is answered
not-ok, any other is the operation it decodes to. A requester with nothing outstanding does nothing (log entry 16). -/
def runPhase (s : State) : Host.Outcome State Fault Refusal :=
  match s.outstanding with
  | none => .next s
  | some q =>
    match decode q with
    | .error .reservedBits => .next (failWith .reserved s)
    | .ok i => exec i s

/-- One step. For a configuration that is not legal no run exists (70_reset_and_hazards.md R176: log entry 14). With no
agent left to move the run has ended (40_dispatcher.md R91) and the machine stays as it is. -/
def step (s : State) : Host.Outcome State Fault Refusal :=
  if s.cfg.legal then
    match s.turn with
    | none => .next s
    | some (.env e) => .next (applyEnv e { s with schedule := s.schedule.tail })
    | some (.run r) => runPhase (s.beginRun r)
  else .refused .illegalConfig

/-- `s` with the request whose bits are `w` presented by requester 0 as its next one, and with the next turn given to
requester 0, so that the next step runs that request's first phase: log entry 6. -/
def State.withFetchWord (s : State) (nbits w : Nat) : State :=
  { s.setRequester 0 { s.requester 0 with queue := tableRequest nbits w :: (s.requester 0).queue, inflight := none } with
    schedule := .run 0 :: s.schedule }

end Sys2Proof.Machine
end

