-- ==== Sys2Proof/Machine/Text.lean ====
section
/-! DEFINITION. The text syntax of a request and its assembly into the four words (30_encoding.md R75). The spec gives the
shape of a line; spacing, and capital or small hexadecimal digits, are DESIGN CHOICES: log entry 20. -/

namespace Sys2Proof.Machine

open Sys2Proof

/-! ### Numbers: decimal, or hexadecimal after `0x` -/

/-- The value of one hexadecimal digit. -/
def digitVal (c : Char) : Option Nat :=
  if '0' ≤ c ∧ c ≤ '9' then some (c.toNat - '0'.toNat)
  else if 'a' ≤ c ∧ c ≤ 'f' then some (c.toNat - 'a'.toNat + 10)
  else if 'A' ≤ c ∧ c ≤ 'F' then some (c.toNat - 'A'.toNat + 10)
  else none

/-- The number that digits continue, from the value `acc` of those before. -/
def digitsFrom (base : Nat) : Nat → List Char → Option Nat
  | acc, [] => some acc
  | acc, c :: rest =>
    match digitVal c with
    | some d => if d < base then digitsFrom base (acc * base + d) rest else none
    | none => none

/-- A nonempty row of digits. -/
def parseDigits (base : Nat) (l : List Char) : Option Nat :=
  if l.isEmpty then none else digitsFrom base 0 l

/-- A number of the text syntax. -/
def parseNumber : List Char → Option Nat
  | '0' :: 'x' :: ds => parseDigits 16 ds
  | ds => parseDigits 10 ds

/-! ### The line -/

/-- A blank inside a line. -/
def isBlank (c : Char) : Bool :=
  c == ' ' || c == '\t'

/-- A text without the blanks before and after it. -/
def trimBlanks (l : List Char) : List Char :=
  ((l.dropWhile isBlank).reverse.dropWhile isBlank).reverse

/-- The texts between the commas of a line. -/
def splitCommas : List Char → List (List Char)
  | [] => [[]]
  | c :: rest =>
    match splitCommas rest with
    | [] => [[c]]
    | piece :: pieces => if c == ',' then [] :: piece :: pieces else (c :: piece) :: pieces

/-- The line before its comment: `;` begins one (R75). -/
def dropComment (l : List Char) : List Char :=
  l.takeWhile (fun c => c != ';')

/-- The mnemonics of R75. -/
def mnemonicOf : Instr → String
  | .enableIRQ _ => "EnableIRQ"
  | .disableIRQ _ => "DisableIRQ"
  | .setPendingIRQ _ => "SetPendingIRQ"
  | .clearPendingIRQ _ => "ClearPendingIRQ"
  | .getPendingIRQ _ _ => "GetPendingIRQ"
  | .setPriorityRaw _ _ => "SetPriorityRaw"
  | .setPriorityGrouped _ _ _ => "SetPriorityGrouped"
  | .getPriority _ _ => "GetPriority"

/-- A line with one operand. -/
def parse1 (k : Nat → TextReq) : List (List Char) → Option TextReq
  | [a] => (parseNumber a).map k
  | _ => none

/-- A line with one operand, and `null` where the output location is null. -/
def parseOut (k : Nat → Bool → TextReq) : List (List Char) → Option TextReq
  | [a] => (parseNumber a).map fun n => k n false
  | [a, z] => if z = "null".toList then (parseNumber a).map fun n => k n true else none
  | _ => none

/-- A line with two operands. -/
def parse2 (k : Nat → Nat → TextReq) : List (List Char) → Option TextReq
  | [a, b] =>
    match parseNumber a, parseNumber b with
    | some x, some y => some (k x y)
    | _, _ => none
  | _ => none

/-- A line with three operands. -/
def parse3 (k : Nat → Nat → Nat → TextReq) : List (List Char) → Option TextReq
  | [a, b, c] =>
    match parseNumber a, parseNumber b, parseNumber c with
    | some x, some y, some z => some (k x y z)
    | _, _, _ => none
  | _ => none

/-- The operands of the operation a line names (R75). -/
def parseOperands (name : List Char) (args : List (List Char)) : Option TextReq :=
  if name = "EnableIRQ".toList then parse1 .enableIRQ args
  else if name = "DisableIRQ".toList then parse1 .disableIRQ args
  else if name = "SetPendingIRQ".toList then parse1 .setPendingIRQ args
  else if name = "ClearPendingIRQ".toList then parse1 .clearPendingIRQ args
  else if name = "GetPendingIRQ".toList then parseOut .getPendingIRQ args
  else if name = "SetPriorityRaw".toList then parse2 .setPriorityRaw args
  else if name = "SetPriorityGrouped".toList then parse3 .setPriorityGrouped args
  else if name = "GetPriority".toList then parseOut .getPriority args
  else none

/-- One line of the text syntax: the mnemonic, a blank, the operands between commas. -/
def parseLine (l : List Char) : Option TextReq :=
  let line := trimBlanks (dropComment l)
  parseOperands (line.takeWhile fun c => !isBlank c)
    ((splitCommas (line.dropWhile fun c => !isBlank c)).map trimBlanks)

/-! ### Assembly -/

/-- The operation of a line, its numbers as 32-bit fields; `null` sets `OV = 0`, and without it `OV = 1` (R75). -/
def textInstr : TextReq → Instr
  | .enableIRQ id => .enableIRQ (BitVec.ofNat 32 id)
  | .disableIRQ id => .disableIRQ (BitVec.ofNat 32 id)
  | .setPendingIRQ id => .setPendingIRQ (BitVec.ofNat 32 id)
  | .clearPendingIRQ id => .clearPendingIRQ (BitVec.ofNat 32 id)
  | .getPendingIRQ id null => .getPendingIRQ (BitVec.ofNat 32 id) (!null)
  | .setPriorityRaw id p => .setPriorityRaw (BitVec.ofNat 32 id) (BitVec.ofNat 32 p)
  | .setPriorityGrouped id g s => .setPriorityGrouped (BitVec.ofNat 32 id) (BitVec.ofNat 32 g) (BitVec.ofNat 32 s)
  | .getPriority id null => .getPriority (BitVec.ofNat 32 id) (!null)

/-- The request of a line; none where a number does not fit its field. Unused fields are zero (R75). -/
def assemble (t : TextReq) : Option Request :=
  if t.wellFormed then some (encode (textInstr t)) else none

/-- The request that a line of text writes. -/
def assembleLine (l : List Char) : Option Request :=
  (parseLine l).bind assemble

/-! ### Writing a line -/

/-- One hexadecimal digit. -/
def hexChar (d : Nat) : Char :=
  if d < 10 then Char.ofNat ('0'.toNat + d) else Char.ofNat ('A'.toNat + (d - 10))

/-- A 32-bit number as `0x` and eight hexadecimal digits. -/
def showNumber (n : Nat) : List Char :=
  '0' :: 'x' :: (List.range 8).map fun k => hexChar (n / 16 ^ (7 - k) % 16)

/-- A line of the text syntax. -/
def showLine (t : TextReq) : List Char :=
  (mnemonicOf (textInstr t)).toList ++ ' ' ::
    (match t with
    | .enableIRQ id | .disableIRQ id | .setPendingIRQ id | .clearPendingIRQ id => showNumber id
    | .getPendingIRQ id null | .getPriority id null => showNumber id ++ (if null then ", null".toList else [])
    | .setPriorityRaw id p => showNumber id ++ ", ".toList ++ showNumber p
    | .setPriorityGrouped id g s => showNumber id ++ ", ".toList ++ showNumber g ++ ", ".toList ++ showNumber s)

end Sys2Proof.Machine
end

