-- ==== Sys2Proof/Safety.lean ====
section
/-! DEFINITION. The terms in which claims speak: the invariant of the machine, what an answered request leaves behind, the
end of a run (40_dispatcher.md R91), and the caller contract (70_reset_and_hazards.md R179). -/

namespace Sys2Proof.Machine

open Sys2Proof

/-! ### The invariant -/

/-- The priority file has `4 * PRI_WORDS` bytes, and the low nibble of each is zero (10_state.md R31, R32). -/
abbrev PriWf (s : State) : Prop :=
  s.pri.length = 4 * priWords s.cfg ∧ ∀ b ∈ s.pri, b &&& 0x0F#8 = 0#8

/-- The table of requesters is in its canonical form: numbers strictly rising, none idle. -/
abbrev TableWf (t : List (Nat × Requester)) : Prop :=
  t.Pairwise (fun e e' => e.1 < e'.1) ∧ ∀ e ∈ t, e.2 ≠ Requester.idle

/-- The id, field byte and `SCR` value that a valid priority-set operation writes (42_priority_ops.md R127, R128); none for
any other operation. -/
def prioArgs (cfg : Config) : Instr → Option (Word × Byte × Word)
  | .setPriorityRaw id p =>
    if valid cfg (.setPriorityRaw id p) then some (id, toField (p.setWidth 8), encOf cfg.enc .g0s16) else none
  | .setPriorityGrouped id g s =>
    if valid cfg (.setPriorityGrouped id g s) then
      some (id, toField ((pack cfg.mode g s).setWidth 8), encOf cfg.enc cfg.mode)
    else none
  | _ => none

/-- What a request asks of the priority file and `SCR`, if it is a valid priority set. -/
def requestArgs (cfg : Config) (q : Request) : Option (Word × Byte × Word) :=
  match decode q with
  | .ok i => prioArgs cfg i
  | .error _ => none

/-- An in-flight record is that of the requester's outstanding request, a valid priority set (10_state.md R36). -/
def inflightOK (cfg : Config) (q : Requester) : Bool :=
  match q.inflight, q.queue with
  | none, _ => true
  | some _, [] => false
  | some p, h :: _ =>
    match requestArgs cfg h with
    | none => false
    | some (id, byte, enc) =>
      p.w == pword id && p.lane == plane cfg.prioIndexMode id && p.byte == byte && p.enc == enc

/-- The bytes of the priority file that an operation can reach (10_state.md R33). -/
def reachableByte (cfg : Config) (k : Nat) : Bool :=
  match cfg.prioIndexMode with
  | .corrected => decide (k < cfg.numIrq)
  | .faithful => decide (k % 4 = 0) && decide (k < 4 * priWords cfg)

/-- The copy that a `P1` took still shows the bytes that no operation reaches (10_state.md R33). -/
def copyOK (s : State) (q : Requester) : Bool :=
  match q.inflight with
  | none => true
  | some p =>
    (List.finRange 4).all fun l =>
      reachableByte s.cfg (4 * p.w + l.val) || laneOf p.c l == s.priByte (4 * p.w + l.val)

/-- The invariant of the machine. -/
abbrev Inv (s : State) : Prop :=
  s.cfg.legal = true ∧ PriWf s ∧ TableWf s.requesters ∧
    (∀ e ∈ s.requesters, inflightOK s.cfg e.2 = true) ∧ (∀ e ∈ s.requesters, copyOK s e.2 = true)

/-! ### What a step leaves behind -/

/-- `EN`, `PEND`, `PRI` and `SCR` are as before. -/
abbrev CsrKept (s t : State) : Prop :=
  t.en = s.en ∧ t.pend = s.pend ∧ t.pri = s.pri ∧ t.scr = s.scr

/-- The configuration, the current requester and the schedule are as before. -/
abbrev SetupKept (s t : State) : Prop :=
  t.cfg = s.cfg ∧ t.cur = s.cur ∧ t.schedule = s.schedule

/-- Every requester but the current one is as before. -/
abbrev OthersKept (s t : State) : Prop :=
  ∀ r, r ≠ s.cur → t.requester r = s.requester r

/-- The current requester has received `STATUS = 1, RVALID = 0` (40_dispatcher.md R90), whatever `RDATA` then is; its output
location is as before. -/
def AnsweredOk (s t : State) (inflight : Option PrioSet) : Prop :=
  (∃ d, t.requester s.cur =
    { queue := s.me.queue.tail, inflight := inflight, responses := s.me.responses ++ [⟨true, false, d⟩], out := s.me.out }) ∧
    OthersKept s t

/-- The current requester has received `STATUS = 1, RVALID = 1, RDATA = v`, and `v` is in its output location. -/
def AnsweredData (s t : State) (v : Word) : Prop :=
  t.requester s.cur =
    { queue := s.me.queue.tail, inflight := s.me.inflight, responses := s.me.responses ++ [⟨true, true, v⟩], out := v } ∧
    OthersKept s t

/-- The current requester has received `STATUS = 0, RVALID = 0`, whatever `RDATA` then is; its output location is as
before. -/
def AnsweredNotOk (s t : State) : Prop :=
  (∃ d, t.requester s.cur =
    { queue := s.me.queue.tail, inflight := s.me.inflight, responses := s.me.responses ++ [⟨false, false, d⟩],
      out := s.me.out }) ∧
    OthersKept s t

/-- A failing request (40_dispatcher.md R82): not-ok, with every register as before; `kind` is recorded for diagnosis. -/
def Failed (s t : State) (kind : ErrKind) : Prop :=
  CsrKept s t ∧ SetupKept s t ∧ AnsweredNotOk s t ∧ t.diag = some kind

/-- Every CSR reads as before, but for the addresses in `changed` (20_memory.md R52); `d` is any value drawn for `SCR`. -/
abbrev ReadsKept (s t : State) (changed : List Nat) : Prop :=
  ∀ a d, a ∉ changed → csrRead t a d = csrRead s a d

/-! ### The fields an operation uses (30_encoding.md R67, R71) -/

/-- The operations that use `A`. -/
def usesA (op : BitVec 3) : Bool :=
  op == 0b101#3 || op == 0b110#3

/-- The operation that uses `B`. -/
def usesB (op : BitVec 3) : Bool :=
  op == 0b110#3

/-- The operations that use `OV`: those that read. -/
def usesOV (op : BitVec 3) : Bool :=
  op == 0b100#3 || op == 0b111#3

/-- A request with the fields that its operation does not use set to zero. -/
def keepUsed (q : Request) : Request :=
  let op := q.ctrl.extractLsb' 0 3
  { ctrl := q.ctrl &&& (if usesOV op then 0xFFFFFFFF#32 else 0xFFFFFFF7#32)
    id := q.id
    a := if usesA op then q.a else 0#32
    b := if usesB op then q.b else 0#32 }

/-- Two requests name the same operation and agree on every field that it uses. -/
abbrev SameUsed (q q' : Request) : Prop :=
  keepUsed q = keepUsed q'

/-! ### Runs -/

/-- The requesters at the start of a run: requester `n + k` is to present the requests of the `k`-th list. -/
def loadPrograms (n : Nat) : List (List Request) → List (Nat × Requester)
  | [] => []
  | p :: rest =>
    if p.isEmpty then loadPrograms (n + 1) rest
    else (n, { Requester.idle with queue := p }) :: loadPrograms (n + 1) rest

/-- The start of a run (40_dispatcher.md R91): a reset state and a finite request sequence for each requester, with the order
in which the agents are to move. -/
def startRun (cfg : Config) (d : ResetDraw) (programs : List (List Request)) (schedule : List Turn) : State :=
  { State.resetFrom cfg d with requesters := loadPrograms 0 programs, schedule := schedule }

/-- `n` steps of the machine. -/
abbrev runSteps (n : Nat) (s : State) : Host.Outcome State Fault Refusal :=
  Sys2Proof.core.run n s

/-- One execution of an operation after another, for the same current requester, with nothing between them. -/
def execAll : List Instr → State → Host.Outcome State Fault Refusal
  | [], s => .next s
  | i :: rest, s =>
    match exec i s with
    | .next t => execAll rest t
    | .fault r => .fault r
    | .refused r => .refused r

/-- A whole priority set of the current requester with nothing between its phases: its three executions (R126). -/
def threePhases (i : Instr) : List Instr :=
  [i, i, i]

/-- The run has ended (40_dispatcher.md R91): no turn is scheduled, every requester has had its last response, and every
`IF[r]` is `None`. -/
abbrev Finished (s : State) : Prop :=
  s.schedule = [] ∧ ∀ r, (s.requester r).queue = [] ∧ (s.requester r).inflight = none

/-- How many phases a requester still has to run at most: three for each request, less those its in-flight record has
behind it. -/
def workOf (q : Requester) : Nat :=
  3 * q.queue.length -
    (match q.inflight with
    | none => 0
    | some p => match p.next with
      | .p2 => 1
      | .p3 => 2)

/-- A bound on the steps before the run has ended. -/
def State.work (s : State) : Nat :=
  s.schedule.length + (s.requesters.map fun e => workOf e.2).sum

/-! ### The writer of `SCR`, and the caller contract -/

/-- The request whose phase the next step runs, and the requester it belongs to. -/
def movingRequest (s : State) : Option (Nat × Request) :=
  match s.turn with
  | some (.run r) => (s.requester r).queue.head?.map fun q => (r, q)
  | _ => none

/-- The value that the next step writes to `SCR`, if it runs a phase `P3`: the `SCR` value of the request whose phase it is
(42_priority_ops.md R132). -/
def scrWriteOf (s : State) : Option Word :=
  match movingRequest s with
  | some (r, q) =>
    match (s.requester r).inflight with
    | some p => if p.next = .p3 then (requestArgs s.cfg q).map fun x => x.2.2 else none
    | none => none
  | none => none

/-- The value of the last `SCR` write among the next `n` steps. -/
def lastScrWrite : Nat → State → Option Word
  | 0, _ => none
  | n + 1, s =>
    match step s with
    | .next t =>
      match lastScrWrite n t with
      | some v => some v
      | none => scrWriteOf s
    | _ => none

/-- An operation that is a priority set. -/
def isPrioSet : Instr → Bool
  | .setPriorityRaw _ _ => true
  | .setPriorityGrouped _ _ _ => true
  | _ => false

/-- A request that names `SetPriorityRaw` or `SetPriorityGrouped`. -/
def setsPriority (q : Request) : Bool :=
  match decode q with
  | .ok i => isPrioSet i
  | .error _ => false

/-- The next step runs a phase of another requester's priority-set request: what the caller contract of
70_reset_and_hazards.md R179 rules out while `r`'s own is between its phases. -/
def breaksContract (r : Nat) (s : State) : Bool :=
  match movingRequest s with
  | some (r', q) => decide (r' ≠ r) && setsPriority q
  | none => false

/-- During the next `n` steps requester `r` has no turn and the caller contract for `r` holds (R179). -/
def Undisturbed (r : Nat) : Nat → State → Prop
  | 0, _ => True
  | n + 1, s =>
    s.turn ≠ some (.run r) ∧ breaksContract r s = false ∧ ∀ t, step s = .next t → Undisturbed r n t

end Sys2Proof.Machine
end

