-- ==== Sys2Proof/Certificates/Slice0/Obligations.lean ====
section
/-! DEFINITION. The statements about the block, from the numbered rules of the spec. -/

open Sys2Proof Sys2Proof.Machine

/-! ## Encoding -/

/-- 30_encoding.md R77 (the spec's own inference, "derived: from rule R65 to rule R75"): the encoding examples, as words and
as lines of text. -/
def Obligations.SpecEncodingExamples : Prop :=
  (decode ⟨0x00000000#32, 0x00000025#32, 0#32, 0#32⟩ = .ok (.enableIRQ 37#32) ∧
   decode ⟨0x00000004#32, 0x00000005#32, 0#32, 0#32⟩ = .ok (.getPendingIRQ 5#32 false) ∧
   decode ⟨0x0000000C#32, 0x00000005#32, 0#32, 0#32⟩ = .ok (.getPendingIRQ 5#32 true) ∧
   decode ⟨0x00000005#32, 0x0000000C#32, 0x00000012#32, 0#32⟩ = .ok (.setPriorityRaw 12#32 0x12#32) ∧
   decode ⟨0x00000006#32, 0x0000000A#32, 0x00000007#32, 0x00000001#32⟩ = .ok (.setPriorityGrouped 10#32 7#32 1#32) ∧
   decode ⟨0x0000000F#32, 0x0000000A#32, 0#32, 0#32⟩ = .ok (.getPriority 10#32 true) ∧
   ∀ id a b, decode ⟨0x00000010#32, id, a, b⟩ = .error .reservedBits) ∧
  (assembleLine "EnableIRQ 37".toList = some ⟨0x00000000#32, 0x00000025#32, 0#32, 0#32⟩ ∧
   assembleLine "GetPendingIRQ 5, null".toList = some ⟨0x00000004#32, 0x00000005#32, 0#32, 0#32⟩ ∧
   assembleLine "GetPendingIRQ 5".toList = some ⟨0x0000000C#32, 0x00000005#32, 0#32, 0#32⟩ ∧
   assembleLine "SetPriorityRaw 12, 0x12".toList = some ⟨0x00000005#32, 0x0000000C#32, 0x00000012#32, 0#32⟩ ∧
   assembleLine "SetPriorityGrouped 10, 7, 1".toList = some ⟨0x00000006#32, 0x0000000A#32, 0x00000007#32, 0x00000001#32⟩ ∧
   assembleLine "GetPriority 10".toList = some ⟨0x0000000F#32, 0x0000000A#32, 0#32, 0#32⟩)

/-- 30_encoding.md R66 to R70: decoding the encoding of any operation gives the operation back, with every operand at every
32-bit value, and the encoding has its reserved bits zero. -/
def Obligations.DecodeOfEncode : Prop :=
  ∀ i : Instr, i.wellFormed = true → decode (encode i) = .ok i ∧ (encode i).wellFormed = true

/-- 30_encoding.md R67, R71: the encoding of what a request decodes to is that request with the fields its operation does
not use set to zero, so that no used bit is dropped or read from elsewhere. -/
def Obligations.EncodeOfDecode : Prop :=
  ∀ (q : Request) (i : Instr), decode q = .ok i → encode i = keepUsed q

/-- 30_encoding.md R65: a request is 128 bits as four words, `CTRL`, `ID`, `A` and `B` from the least significant up. -/
def Obligations.RequestIsFourWords : Prop :=
  (∀ q : Request, Request.ofBits q.bits = q ∧ q.bits.extractLsb' 0 32 = q.ctrl ∧ q.bits.extractLsb' 32 32 = q.id ∧
    q.bits.extractLsb' 64 32 = q.a ∧ q.bits.extractLsb' 96 32 = q.b) ∧
  (∀ v : BitVec 128, (Request.ofBits v).bits = v)

/-- 30_encoding.md R73: decoding is total; a request is illegal exactly when `CTRL & 0xFFFFFFF0` is not zero, and the
operation with opcode `n` is selected exactly when `CTRL & 0xFFFFFFF7 = n`; `ID`, `A` and `B` play no part. (The mask is the
spec's own inference, "derived: from rule R66, rule R67 and rule R72".) -/
def Obligations.MaskSelectsOperation : Prop :=
  ∀ q : Request,
    (decode q = .error .reservedBits ↔ q.ctrl &&& 0xFFFFFFF0#32 ≠ 0#32) ∧
    (∀ n : BitVec 3, (∃ i, decode q = .ok i ∧ i.opcode = n) ↔ q.ctrl &&& 0xFFFFFFF7#32 = n.setWidth 32) ∧
    (∀ i, decode q = .ok i → i.opcode = q.ctrl.extractLsb' 0 3)

/-- 30_encoding.md R71: when the outstanding request is replaced by one that agrees with it on the fields its operation
uses, the next step leaves the same registers, responses and in-flight record. -/
def Obligations.UnusedFieldsIgnored : Prop :=
  ∀ (s t : State) (r : Nat) (q q' : Request) (rest : List Request),
    Inv s → s.turn = some (.run r) → (s.requester r).queue = q :: rest → SameUsed q q' → step s = .next t →
    ∃ t', step (s.setRequester r { s.requester r with queue := q' :: rest }) = .next t' ∧ CsrKept t t' ∧
      (t'.requester r).responses = (t.requester r).responses ∧ (t'.requester r).out = (t.requester r).out ∧
      (t'.requester r).inflight = (t.requester r).inflight ∧
      (t'.requester r).queue.length = (t.requester r).queue.length ∧
      ∀ r', r' ≠ r → t'.requester r' = t.requester r'

/-- 30_encoding.md R75: a line written from operands that fit their fields is read back as those operands; it assembles to
the encoding of its operation, with `OV = 0` for `null`, `OV = 1` for a read without it, and `OV = 0` for the other six. The
spacing of the line and its eight-digit numbers are the model's choice: log entry 20. -/
def Obligations.TextLineRoundTrip : Prop :=
  ∀ t : TextReq, t.wellFormed = true →
    parseLine (showLine t) = some t ∧
    ∃ q, assemble t = some q ∧ decode q = .ok (textInstr t) ∧ keepUsed q = q ∧
      q.ov = (match t with
        | .getPendingIRQ _ null => !null
        | .getPriority _ null => !null
        | _ => false)

/-! ## CSR accesses -/

/-- 20_memory.md R46, R48, R50: under a legal configuration each register of the table has an aligned address of its own
below `2^32`, and an address that reaches a register is that register's. -/
def Obligations.AddressMapExact : Prop :=
  ∀ cfg : Config, cfg.legal = true →
    (∀ c, inMap cfg c = true →
      csrAt cfg (addrOf cfg c) = some c ∧ addrOf cfg c % 4 = 0 ∧ addrOf cfg c + 4 ≤ 2 ^ 32) ∧
    (∀ a c, csrAt cfg a = some c → inMap cfg c = true ∧ addrOf cfg c = a) ∧
    (∀ c c', inMap cfg c = true → inMap cfg c' = true → addrOf cfg c = addrOf cfg c' → c = c')

/-- 20_memory.md R52: what a read of each register returns; a read of `SCR` returns whatever value is drawn. ("The set and
clear views both read the same state" is "from general knowledge, not in source": log entry 18.) -/
def Obligations.CsrReadTable : Prop :=
  ∀ (s : State) (d : Word), s.cfg.legal = true → PriWf s →
    (∀ b, b < 3 →
      csrRead s (iserAddr s.cfg b) d = some (s.en.extractLsb' (32 * b) 32) ∧
      csrRead s (icerAddr s.cfg b) d = some (s.en.extractLsb' (32 * b) 32) ∧
      csrRead s (isprAddr s.cfg b) d = some (s.pend.extractLsb' (32 * b) 32) ∧
      csrRead s (icprAddr s.cfg b) d = some (s.pend.extractLsb' (32 * b) 32)) ∧
    (∀ w, w < priWords s.cfg →
      csrRead s (iprAddr s.cfg w) d =
        some (s.priByte (4 * w + 3) ++ s.priByte (4 * w + 2) ++ s.priByte (4 * w + 1) ++ s.priByte (4 * w)) ∧
      s.priWord w &&& 0x0F0F0F0F#32 = 0#32) ∧
    csrRead s (scrAddrOf s.cfg) d = some d

/-- 20_memory.md R53: what a write of each register does, and that it changes nothing else. -/
def Obligations.CsrWriteTable : Prop :=
  ∀ (s : State) (v : Word), s.cfg.legal = true → PriWf s →
    (∀ b, b < 3 →
      (∃ en', csrWrite s (iserAddr s.cfg b) v = some { s with en := en' } ∧ lineWord en' b = lineWord s.en b ||| v ∧
        ∀ b', b' < 3 → b' ≠ b → lineWord en' b' = lineWord s.en b') ∧
      (∃ en', csrWrite s (icerAddr s.cfg b) v = some { s with en := en' } ∧ lineWord en' b = lineWord s.en b &&& ~~~v ∧
        ∀ b', b' < 3 → b' ≠ b → lineWord en' b' = lineWord s.en b') ∧
      (∃ pend', csrWrite s (isprAddr s.cfg b) v = some { s with pend := pend' } ∧
        lineWord pend' b = lineWord s.pend b ||| v ∧ ∀ b', b' < 3 → b' ≠ b → lineWord pend' b' = lineWord s.pend b') ∧
      (∃ pend', csrWrite s (icprAddr s.cfg b) v = some { s with pend := pend' } ∧
        lineWord pend' b = lineWord s.pend b &&& ~~~v ∧
        ∀ b', b' < 3 → b' ≠ b → lineWord pend' b' = lineWord s.pend b')) ∧
    (∀ w, w < priWords s.cfg →
      ∃ t, csrWrite s (iprAddr s.cfg w) v = some t ∧ t = { s with pri := t.pri } ∧ t.priWord w = v &&& 0xF0F0F0F0#32 ∧
        ∀ w', w' ≠ w → t.priWord w' = s.priWord w') ∧
    csrWrite s (scrAddrOf s.cfg) v = some { s with scr := v }

/-- 20_memory.md R55: a second write of the same value to a set or clear view changes nothing; a write of a priority word or
of `SCR` replaces the one before; `EnableIRQ` twice leaves the registers that once leaves. (The spec's own inference,
"derived: from rule R53".) -/
def Obligations.RepeatedWrites : Prop :=
  ∀ s : State, s.cfg.legal = true →
    (∀ (b : Nat) (v : Word) (a : Nat), b < 3 →
      a ∈ [iserAddr s.cfg b, icerAddr s.cfg b, isprAddr s.cfg b, icprAddr s.cfg b] →
      ∃ t, csrWrite s a v = some t ∧ csrWrite t a v = some t) ∧
    (∀ (a : Nat) (v v' : Word), (a = scrAddrOf s.cfg ∨ ∃ w, w < priWords s.cfg ∧ a = iprAddr s.cfg w) →
      ∃ t, csrWrite s a v = some t ∧ csrWrite t a v' = csrWrite s a v') ∧
    (∀ id : Word, id.toNat < 96 →
      ∃ t u, exec (.enableIRQ id) s = .next t ∧ exec (.enableIRQ id) t = .next u ∧ CsrKept t u)

/-- 10_state.md R31, 20_memory.md R49: lane `l` of a priority word read is byte `4w + l` of the file, which is the byte at
address `IPR_BASE + 4w + l`. (The lane order is "from general knowledge, not in source": log entry 18.) -/
def Obligations.PriorityByteOrder : Prop :=
  ∀ (s : State) (w : Nat) (l : Fin 4) (d : Word), s.cfg.legal = true → w < priWords s.cfg →
    ∃ v, csrRead s (iprAddr s.cfg w) d = some v ∧ v.extractLsb' (8 * l.val) 8 = s.priByte (4 * w + l.val) ∧
      s.iprByteAt (s.cfg.iprBase.toNat + 4 * w + l.val) = some (s.priByte (4 * w + l.val))

/-- 20_memory.md R58: an environment event sets or clears one bit of `PEND`, and changes nothing else. -/
def Obligations.EnvironmentEvent : Prop :=
  ∀ (s : State) (rest : List Turn) (i : Fin 96), s.cfg.legal = true →
    (s.schedule = .env (.setPending i) :: rest →
      ∃ p, step s = .next { s with pend := p, schedule := rest } ∧
        ∀ j, j < 96 → p.getLsbD j = (decide (j = i.val) || s.pend.getLsbD j)) ∧
    (s.schedule = .env (.clearPending i) :: rest →
      ∃ p, step s = .next { s with pend := p, schedule := rest } ∧
        ∀ j, j < 96 → p.getLsbD j = (!decide (j = i.val) && s.pend.getLsbD j))

/-! ## The indexer and the packer -/

/-- 42_priority_ops.md R121: the five grouping modes. (Most maxima and the group shift are the spec's own inference: log
entry 21.) -/
def Obligations.GroupingModeTable : Prop :=
  ([Mode.g16s0, .g8s2, .g4s4, .g2s8, .g0s16].map fun m => (groupBits m, subBits m, maxGroup m, maxSub m, groupShift m)) =
    [(4, 0, 15, 0, 0), (3, 1, 7, 1, 1), (2, 2, 3, 3, 2), (1, 3, 1, 7, 3), (0, 4, 0, 15, 4)] ∧
  ∀ m, maxGroup m = 2 ^ groupBits m - 1 ∧ maxSub m = 2 ^ subBits m - 1 ∧ groupShift m = subBits m

/-- 42_priority_ops.md R122: the packed value of a legal group and sub-priority. (Its value and bound are the spec's own
inference, "derived: from rule R121".) -/
def Obligations.PackValue : Prop :=
  ∀ (m : Mode) (g s : Word), g.toNat ≤ maxGroup m → s.toNat ≤ maxSub m →
    pack m g s = s ||| (g <<< groupShift m) ∧ (pack m g s).toNat = g.toNat * 2 ^ subBits m + s.toNat ∧
      (pack m g s).toNat ≤ 15

/-- 42_priority_ops.md R123, R124: the field byte of a priority value, and the value that a slot byte unpacks to. -/
def Obligations.FieldByteAndUnpack : Prop :=
  (∀ v : Byte, toField v = ((v.setWidth 32) <<< 4).setWidth 8 &&& 0xF0#8 ∧ (toField v).toNat = (v.toNat % 16) * 16 ∧
    toField v = v.extractLsb' 0 4 ++ 0#4) ∧
  (∀ s : Byte, fromField s = ((s.setWidth 32) >>> 4) &&& 0xFF#32 ∧
    (s &&& 0x0F#8 = 0#8 → (fromField s).toNat = (s.extractLsb' 4 4).toNat ∧ (fromField s).toNat ≤ 15))

/-- 42_priority_ops.md R125 (the spec's own inference, "derived: from rule R121 and rule R122"): a requester's splitting of
a nibble, which gives back the group and the sub-priority that were packed. -/
def Obligations.SplitInvertsPack : Prop :=
  (∀ (m : Mode) (n : Word), splitGroup m n = n >>> subBits m ∧ splitSub m n = n &&& BitVec.ofNat 32 (2 ^ subBits m - 1)) ∧
  ∀ (m : Mode) (g s : Word), g.toNat ≤ maxGroup m → s.toNat ≤ maxSub m →
    splitGroup m (pack m g s) = g ∧ splitSub m (pack m g s) = s

/-- 40_dispatcher.md R83: the bank decomposition. -/
def Obligations.BankDecomposition : Prop :=
  ∀ id : Word, bank id = id.toNat / 32 ∧ bitpos id = id.toNat % 32 ∧ bitmask id = 1#32 <<< bitpos id ∧
    (∀ i, (bitmask id).getLsbD i = decide (i = bitpos id)) ∧
    (id.toNat < 96 → bank id = (id.extractLsb' 5 2).toNat ∧ bank id ≤ 2 ∧ bitpos id = (id.extractLsb' 0 5).toNat)

/-- 40_dispatcher.md R84: the priority decomposition. -/
def Obligations.PriorityDecomposition : Prop :=
  ∀ id : Word, pword id = id.toNat / 4 ∧ pword id = (id.extractLsb' 2 30).toNat ∧
    (plane .corrected id).val = id.toNat % 4 ∧ (plane .corrected id).val = (id.extractLsb' 0 2).toNat ∧
    (plane .faithful id).val = 0 ∧ ∀ m, slot m id = 4 * pword id + (plane m id).val

/-- 40_dispatcher.md R85 (the spec's own inference, "derived: from rule R83, rule R84"): the ranges of the indices of an id
that passes its check. -/
def Obligations.IndexRanges : Prop :=
  ∀ (cfg : Config) (id : Word), cfg.legal = true →
    (id.toNat < 96 → bank id ≤ 2 ∧ ∀ f ∈ [iserAddr, icerAddr, isprAddr, icprAddr], (csrAt cfg (f cfg (bank id))).isSome) ∧
    (id.toNat < cfg.numIrq →
      pword id ≤ (cfg.numIrq - 1) / 4 ∧ (cfg.numIrq - 1) / 4 = priWords cfg - 1 ∧
      csrAt cfg (iprAddr cfg (pword id)) = some (.ipr (pword id)) ∧ slot .corrected id < cfg.numIrq)

/-- 40_dispatcher.md R86 (the spec's own inference, "derived: from rule R84"): in `Faithful` mode the ids of a word share
one slot, and `GetPriority` answers the same for each of them; in `Corrected` mode distinct ids have distinct slots. -/
def Obligations.SlotsSharedOrDistinct : Prop :=
  (∀ id id' : Word, id.toNat / 4 = id'.toNat / 4 → slot .faithful id = 4 * (id.toNat / 4) ∧
    slot .faithful id' = slot .faithful id) ∧
  (∀ id id' : Word, slot .corrected id = slot .corrected id' → id = id') ∧
  (∀ (s : State) (id id' : Word), s.cfg.legal = true → s.cfg.prioIndexMode = .faithful → id.toNat < s.cfg.numIrq →
    id'.toNat < s.cfg.numIrq → id.toNat / 4 = id'.toNat / 4 →
    ∃ t v, exec (.getPriority id true) s = .next t ∧ AnsweredData s t v ∧ exec (.getPriority id' true) s = .next t)

/-! ## The bank operations -/

/-- 41_bank_ops.md R100: `EnableIRQ id` sets `EN[id]` by one write of `ISER`, changes nothing else and answers ok; an id of
96 or more is answered not-ok with no state change. -/
def Obligations.EnableIRQSetsItsBit : Prop :=
  (∀ q : Request, q.ctrl &&& 0xFFFFFFF7#32 = 0b000#32 → decode q = .ok (.enableIRQ q.id)) ∧
  (∀ (s : State) (id : Word), s.cfg.legal = true → id.toNat < 96 →
    ∃ t s', exec (.enableIRQ id) s = .next t ∧
      csrWrite s (iserAddr s.cfg (bank id)) (bitmask id) = some s' ∧ CsrKept s' t ∧
      (∀ i, i < 96 → t.en.getLsbD i = (decide (i = id.toNat) || s.en.getLsbD i)) ∧
      t.pend = s.pend ∧ t.pri = s.pri ∧ t.scr = s.scr ∧
      ReadsKept s t [iserAddr s.cfg (bank id), icerAddr s.cfg (bank id)] ∧ SetupKept s t ∧
      AnsweredOk s t s.me.inflight) ∧
  (∀ (s : State) (id : Word), 96 ≤ id.toNat → ∃ t, exec (.enableIRQ id) s = .next t ∧ Failed s t .idRange)

/-- 41_bank_ops.md R101: `DisableIRQ id` clears `EN[id]` by one write of `ICER`, changes nothing else and answers ok; an id
of 96 or more is answered not-ok with no state change. -/
def Obligations.DisableIRQClearsItsBit : Prop :=
  (∀ q : Request, q.ctrl &&& 0xFFFFFFF7#32 = 0b001#32 → decode q = .ok (.disableIRQ q.id)) ∧
  (∀ (s : State) (id : Word), s.cfg.legal = true → id.toNat < 96 →
    ∃ t s', exec (.disableIRQ id) s = .next t ∧
      csrWrite s (icerAddr s.cfg (bank id)) (bitmask id) = some s' ∧ CsrKept s' t ∧
      (∀ i, i < 96 → t.en.getLsbD i = (!decide (i = id.toNat) && s.en.getLsbD i)) ∧
      t.pend = s.pend ∧ t.pri = s.pri ∧ t.scr = s.scr ∧
      ReadsKept s t [iserAddr s.cfg (bank id), icerAddr s.cfg (bank id)] ∧ SetupKept s t ∧
      AnsweredOk s t s.me.inflight) ∧
  (∀ (s : State) (id : Word), 96 ≤ id.toNat → ∃ t, exec (.disableIRQ id) s = .next t ∧ Failed s t .idRange)

/-- 41_bank_ops.md R102: `SetPendingIRQ id` sets `PEND[id]` by one write of `ISPR`, changes nothing else and answers ok; an
id of 96 or more is answered not-ok with no state change. -/
def Obligations.SetPendingIRQSetsItsBit : Prop :=
  (∀ q : Request, q.ctrl &&& 0xFFFFFFF7#32 = 0b010#32 → decode q = .ok (.setPendingIRQ q.id)) ∧
  (∀ (s : State) (id : Word), s.cfg.legal = true → id.toNat < 96 →
    ∃ t s', exec (.setPendingIRQ id) s = .next t ∧
      csrWrite s (isprAddr s.cfg (bank id)) (bitmask id) = some s' ∧ CsrKept s' t ∧
      (∀ i, i < 96 → t.pend.getLsbD i = (decide (i = id.toNat) || s.pend.getLsbD i)) ∧
      t.en = s.en ∧ t.pri = s.pri ∧ t.scr = s.scr ∧
      ReadsKept s t [isprAddr s.cfg (bank id), icprAddr s.cfg (bank id)] ∧ SetupKept s t ∧
      AnsweredOk s t s.me.inflight) ∧
  (∀ (s : State) (id : Word), 96 ≤ id.toNat → ∃ t, exec (.setPendingIRQ id) s = .next t ∧ Failed s t .idRange)

/-- 41_bank_ops.md R103: `ClearPendingIRQ id` clears `PEND[id]` by one write of `ICPR`, changes nothing else and answers ok;
an id of 96 or more is answered not-ok with no state change. -/
def Obligations.ClearPendingIRQClearsItsBit : Prop :=
  (∀ q : Request, q.ctrl &&& 0xFFFFFFF7#32 = 0b011#32 → decode q = .ok (.clearPendingIRQ q.id)) ∧
  (∀ (s : State) (id : Word), s.cfg.legal = true → id.toNat < 96 →
    ∃ t s', exec (.clearPendingIRQ id) s = .next t ∧
      csrWrite s (icprAddr s.cfg (bank id)) (bitmask id) = some s' ∧ CsrKept s' t ∧
      (∀ i, i < 96 → t.pend.getLsbD i = (!decide (i = id.toNat) && s.pend.getLsbD i)) ∧
      t.en = s.en ∧ t.pri = s.pri ∧ t.scr = s.scr ∧
      ReadsKept s t [isprAddr s.cfg (bank id), icprAddr s.cfg (bank id)] ∧ SetupKept s t ∧
      AnsweredOk s t s.me.inflight) ∧
  (∀ (s : State) (id : Word), 96 ≤ id.toNat → ∃ t, exec (.clearPendingIRQ id) s = .next t ∧ Failed s t .idRange)

/-- 41_bank_ops.md R104: `GetPendingIRQ id` answers ok with 1 or 0 as `PEND[id]` is, read through `ISPR`, and writes no
state; it is answered not-ok, the output location unmodified, when the id is 96 or more or `OV` is 0. -/
def Obligations.GetPendingIRQReadsItsBit : Prop :=
  (∀ q : Request, q.ctrl &&& 0xFFFFFFF7#32 = 0b100#32 → decode q = .ok (.getPendingIRQ q.id q.ov)) ∧
  (∀ (s : State) (id : Word), s.cfg.legal = true → id.toNat < 96 →
    ∃ t word, exec (.getPendingIRQ id true) s = .next t ∧
      (∀ d, csrRead s (isprAddr s.cfg (bank id)) d = some word ∧ csrRead s (icprAddr s.cfg (bank id)) d = some word) ∧
      word.getLsbD (bitpos id) = s.pend.getLsbD id.toNat ∧
      AnsweredData s t (if s.pend.getLsbD id.toNat then 1#32 else 0#32) ∧ CsrKept s t ∧ ReadsKept s t [] ∧
      SetupKept s t) ∧
  (∀ (s : State) (id : Word) (ov : Bool), 96 ≤ id.toNat →
    ∃ t, exec (.getPendingIRQ id ov) s = .next t ∧ Failed s t .idRange) ∧
  (∀ (s : State) (id : Word), id.toNat < 96 → ∃ t, exec (.getPendingIRQ id false) s = .next t ∧ Failed s t .nullOut)

/-- 41_bank_ops.md R105 (the spec's own inference, "derived: from rule R100 to rule R104"): the laws of the bank operations,
for requests of one requester with nothing between them. -/
def Obligations.BankOperationLaws : Prop :=
  ∀ (s : State) (id : Word), s.cfg.legal = true →
    (id.toNat < 96 →
      (∃ t d d', execAll [.enableIRQ id, .disableIRQ id] s = .next t ∧ t.en.getLsbD id.toNat = false ∧
        t.me.responses = s.me.responses ++ [⟨true, false, d⟩, ⟨true, false, d'⟩]) ∧
      (∃ t d, execAll [.setPendingIRQ id, .getPendingIRQ id true] s = .next t ∧
        t.me.responses = s.me.responses ++ [⟨true, false, d⟩, ⟨true, true, 1#32⟩]) ∧
      (∃ t d, execAll [.clearPendingIRQ id, .getPendingIRQ id true] s = .next t ∧
        t.me.responses = s.me.responses ++ [⟨true, false, d⟩, ⟨true, true, 0#32⟩]) ∧
      (∃ t u, execAll [.enableIRQ id] s = .next t ∧ execAll [.enableIRQ id, .enableIRQ id] s = .next u ∧ CsrKept t u)) ∧
    (96 ≤ id.toNat → ∀ ov, ∀ i ∈ [Instr.enableIRQ id, .disableIRQ id, .setPendingIRQ id, .clearPendingIRQ id,
        .getPendingIRQ id ov],
      ∃ t, exec i s = .next t ∧ CsrKept s t ∧ AnsweredNotOk s t)

/-- 41_bank_ops.md R106 (the spec's own inference) and 70_reset_and_hazards.md R178: a bank operation on an id changes only
that bit of `EN` or of `PEND`, and two of them, of any two requesters, on different lines, or the same operation on one
line, leave the same registers in either order. -/
def Obligations.BankOperationsNeverCorrupt : Prop :=
  ∀ (s : State) (r r' : Nat) (id id' : Word),
    ∀ op ∈ [Instr.enableIRQ, .disableIRQ, .setPendingIRQ, .clearPendingIRQ],
    ∀ op' ∈ [Instr.enableIRQ, .disableIRQ, .setPendingIRQ, .clearPendingIRQ],
    s.cfg.legal = true → id.toNat < 96 → id'.toNat < 96 → (id ≠ id' ∨ op = op') →
    ∃ t t' u u', exec (op id) { s with cur := r } = .next t ∧ exec (op' id') { t with cur := r' } = .next t' ∧
      exec (op' id') { s with cur := r' } = .next u ∧ exec (op id) { u with cur := r } = .next u' ∧ CsrKept t' u' ∧
      ∀ i, i < 96 → i ≠ id.toNat → t.en.getLsbD i = s.en.getLsbD i ∧ t.pend.getLsbD i = s.pend.getLsbD i

/-! ## The priority operations -/

/-- 42_priority_ops.md R126: the three phases of a successful priority set. `P1` copies the word into the in-flight record;
`P2` writes the copy back with the record's lane replaced, whatever the word holds by then; `P3` writes `SCR`, clears the
record and answers ok. -/
def Obligations.PriorityWritePhases : Prop :=
  (∀ (s : State) (i : Instr) (id : Word) (byte : Byte) (enc : Word), s.cfg.legal = true → s.me.inflight = none →
    prioArgs s.cfg i = some (id, byte, enc) →
    ∃ t c, exec i s = .next t ∧ (∀ d, csrRead s (iprAddr s.cfg (pword id)) d = some c) ∧
      t.requester s.cur =
        { s.me with inflight := some ⟨pword id, plane s.cfg.prioIndexMode id, byte, enc, .p2, c⟩ } ∧
      OthersKept s t ∧ CsrKept s t ∧ ReadsKept s t [] ∧ SetupKept s t) ∧
  (∀ (s : State) (i : Instr) (p : PrioSet), s.cfg.legal = true → PriWf s → isPrioSet i = true → s.me.inflight = some p →
    p.next = .p2 → p.w < priWords s.cfg →
    ∃ t s', exec i s = .next t ∧ csrWrite s (iprAddr s.cfg p.w) (mergeLane p.c p.lane p.byte) = some s' ∧
      CsrKept s' t ∧ t.priWord p.w = mergeLane p.c p.lane p.byte &&& 0xF0F0F0F0#32 ∧
      (∀ l : Fin 4, laneOf (mergeLane p.c p.lane p.byte) l = if l = p.lane then p.byte else laneOf p.c l) ∧
      (∀ k, k / 4 ≠ p.w → t.priByte k = s.priByte k) ∧ t.en = s.en ∧ t.pend = s.pend ∧ t.scr = s.scr ∧
      t.requester s.cur = { s.me with inflight := some { p with next := .p3 } } ∧ OthersKept s t ∧
      ReadsKept s t [iprAddr s.cfg p.w] ∧ SetupKept s t) ∧
  (∀ (s : State) (i : Instr) (p : PrioSet), s.cfg.legal = true → isPrioSet i = true → s.me.inflight = some p →
    p.next = .p3 →
    ∃ t, exec i s = .next t ∧ csrWrite s (scrAddrOf s.cfg) p.enc = some { s with scr := t.scr } ∧ t.scr = p.enc ∧
      t.en = s.en ∧ t.pend = s.pend ∧ t.pri = s.pri ∧ AnsweredOk s t none ∧ ReadsKept s t [] ∧ SetupKept s t)

/-- 42_priority_ops.md R127: `SetPriorityRaw id, priorityByte`, its three phases with nothing between them, writes the low
nibble of `priorityByte` to the top nibble of its slot and `ENC(G0S16)` to `SCR`, whatever `MODE` is, and answers ok; it is
answered not-ok with no state change when the id is `NUM_IRQ` or more, or else the value above 255. -/
def Obligations.SetPriorityRawWritesItsSlot : Prop :=
  (∀ q : Request, q.ctrl &&& 0xFFFFFFF7#32 = 0b101#32 → decode q = .ok (.setPriorityRaw q.id q.a)) ∧
  (∀ (s : State) (id p : Word), s.cfg.legal = true → PriWf s → s.me.inflight = none → id.toNat < s.cfg.numIrq →
    p.toNat ≤ 255 →
    ∃ s1 s2 t, exec (.setPriorityRaw id p) s = .next s1 ∧ exec (.setPriorityRaw id p) s1 = .next s2 ∧
      exec (.setPriorityRaw id p) s2 = .next t ∧
      (∀ k, t.priByte k = if k = slot s.cfg.prioIndexMode id then p.extractLsb' 0 4 ++ 0#4 else s.priByte k) ∧
      t.scr = encOf s.cfg.enc .g0s16 ∧ t.en = s.en ∧ t.pend = s.pend ∧ ReadsKept s t [iprAddr s.cfg (pword id)] ∧
      SetupKept s t ∧ AnsweredOk s t none) ∧
  (∀ (s : State) (id p : Word), s.me.inflight = none → s.cfg.numIrq ≤ id.toNat →
    ∃ t, exec (.setPriorityRaw id p) s = .next t ∧ Failed s t .idRange) ∧
  (∀ (s : State) (id p : Word), s.me.inflight = none → id.toNat < s.cfg.numIrq → 255 < p.toNat →
    ∃ t, exec (.setPriorityRaw id p) s = .next t ∧ Failed s t .prioRange)

/-- 42_priority_ops.md R128: `SetPriorityGrouped id, group, sub`, its three phases with nothing between them, writes the
packed value to the top nibble of its slot and `ENC(MODE)` to `SCR`, and answers ok; it is answered not-ok with no state
change when the group or the sub-priority is above its maximum, or else the id is `NUM_IRQ` or more. -/
def Obligations.SetPriorityGroupedWritesItsSlot : Prop :=
  (∀ q : Request, q.ctrl &&& 0xFFFFFFF7#32 = 0b110#32 → decode q = .ok (.setPriorityGrouped q.id q.a q.b)) ∧
  (∀ (s : State) (id g sub : Word), s.cfg.legal = true → PriWf s → s.me.inflight = none →
    g.toNat ≤ maxGroup s.cfg.mode → sub.toNat ≤ maxSub s.cfg.mode → id.toNat < s.cfg.numIrq →
    ∃ s1 s2 t, exec (.setPriorityGrouped id g sub) s = .next s1 ∧ exec (.setPriorityGrouped id g sub) s1 = .next s2 ∧
      exec (.setPriorityGrouped id g sub) s2 = .next t ∧
      (∀ k, t.priByte k =
        if k = slot s.cfg.prioIndexMode id then (pack s.cfg.mode g sub).extractLsb' 0 4 ++ 0#4 else s.priByte k) ∧
      t.scr = encOf s.cfg.enc s.cfg.mode ∧ t.en = s.en ∧ t.pend = s.pend ∧
      ReadsKept s t [iprAddr s.cfg (pword id)] ∧ SetupKept s t ∧ AnsweredOk s t none) ∧
  (∀ (s : State) (id g sub : Word), s.me.inflight = none → (maxGroup s.cfg.mode < g.toNat ∨ maxSub s.cfg.mode < sub.toNat) →
    ∃ t, exec (.setPriorityGrouped id g sub) s = .next t ∧ Failed s t .groupSub) ∧
  (∀ (s : State) (id g sub : Word), s.me.inflight = none → g.toNat ≤ maxGroup s.cfg.mode →
    sub.toNat ≤ maxSub s.cfg.mode → s.cfg.numIrq ≤ id.toNat →
    ∃ t, exec (.setPriorityGrouped id g sub) s = .next t ∧ Failed s t .idRange)

/-- 42_priority_ops.md R129: `GetPriority id` answers ok with the nibble of its slot, read through `IPR`, and writes no
state; it is answered not-ok, the output location unmodified, when the id is `NUM_IRQ` or more or `OV` is 0. -/
def Obligations.GetPriorityReadsItsSlot : Prop :=
  (∀ q : Request, q.ctrl &&& 0xFFFFFFF7#32 = 0b111#32 → decode q = .ok (.getPriority q.id q.ov)) ∧
  (∀ (s : State) (id : Word), s.cfg.legal = true → PriWf s → id.toNat < s.cfg.numIrq →
    ∃ t word v, exec (.getPriority id true) s = .next t ∧
      (∀ d, csrRead s (iprAddr s.cfg (pword id)) d = some word) ∧
      word.extractLsb' (8 * (plane s.cfg.prioIndexMode id).val) 8 = s.priByte (slot s.cfg.prioIndexMode id) ∧
      v = ((s.priByte (slot s.cfg.prioIndexMode id)).extractLsb' 4 4).setWidth 32 ∧ v.toNat ≤ 15 ∧
      AnsweredData s t v ∧ CsrKept s t ∧ ReadsKept s t [] ∧ SetupKept s t) ∧
  (∀ (s : State) (id : Word) (ov : Bool), s.cfg.numIrq ≤ id.toNat →
    ∃ t, exec (.getPriority id ov) s = .next t ∧ Failed s t .idRange) ∧
  (∀ (s : State) (id : Word), id.toNat < s.cfg.numIrq → ∃ t, exec (.getPriority id false) s = .next t ∧ Failed s t .nullOut)

/-- 42_priority_ops.md R130 (the spec's own inference): after `SetPriorityGrouped id, g, s`, as long as the priority word
stays as it left it, `GetPriority id` answers ok with `pack(MODE, g, s)`; in `Faithful` mode so does `GetPriority` of every
id of the word. -/
def Obligations.GroupedRoundTrip : Prop :=
  ∀ (s : State) (id g sub : Word), s.cfg.legal = true → PriWf s → s.me.inflight = none →
    g.toNat ≤ maxGroup s.cfg.mode → sub.toNat ≤ maxSub s.cfg.mode → id.toNat < s.cfg.numIrq →
    ∃ t, execAll (threePhases (.setPriorityGrouped id g sub)) s = .next t ∧ AnsweredOk s t none ∧
      ∀ u : State, u.cfg = s.cfg → u.priWord (pword id) = t.priWord (pword id) →
        (∃ v, exec (.getPriority id true) u = .next v ∧ AnsweredData u v (pack s.cfg.mode g sub)) ∧
        (s.cfg.prioIndexMode = .faithful → ∀ id' : Word, id'.toNat / 4 = id.toNat / 4 → id'.toNat < s.cfg.numIrq →
          ∃ v, exec (.getPriority id' true) u = .next v ∧ AnsweredData u v (pack s.cfg.mode g sub))

/-- 42_priority_ops.md R131 (the spec's own inference): after `SetPriorityRaw id, p`, as long as the priority word stays as
it left it, `GetPriority id` answers ok with `p mod 16`, which is `p` exactly when `p <= 15`. -/
def Obligations.RawRoundTrip : Prop :=
  ∀ (s : State) (id p : Word), s.cfg.legal = true → PriWf s → s.me.inflight = none → id.toNat < s.cfg.numIrq →
    p.toNat ≤ 255 →
    ∃ t, execAll (threePhases (.setPriorityRaw id p)) s = .next t ∧ AnsweredOk s t none ∧
      ∀ u : State, u.cfg = s.cfg → u.priWord (pword id) = t.priWord (pword id) →
        ∃ v x, exec (.getPriority id true) u = .next v ∧ AnsweredData u v x ∧ x.toNat = p.toNat % 16 ∧
          (x = p ↔ p.toNat ≤ 15)

/-! ## Validation and responses -/

/-- 40_dispatcher.md R80, R81: a request is answered not-ok exactly when one of the checks of its operation fails; the
checks are those of the rule's table, and read nothing of the state but the configuration. (A priority set is answered or
begun at its first phase.) -/
def Obligations.VerdictIsValidation : Prop :=
  ∀ (s : State) (i : Instr), s.cfg.legal = true → s.me.inflight = none →
    ((∃ t, exec i s = .next t ∧ AnsweredNotOk s t) ↔
      ¬ (match i with
        | .enableIRQ id | .disableIRQ id | .setPendingIRQ id | .clearPendingIRQ id => id.toNat < 96
        | .getPendingIRQ id ov => id.toNat < 96 ∧ ov = true
        | .setPriorityRaw id p => id.toNat < s.cfg.numIrq ∧ p.toNat ≤ 255
        | .setPriorityGrouped id g sub =>
          (g.toNat ≤ maxGroup s.cfg.mode ∧ sub.toNat ≤ maxSub s.cfg.mode) ∧ id.toNat < s.cfg.numIrq
        | .getPriority id ov => id.toNat < s.cfg.numIrq ∧ ov = true))

/-- 40_dispatcher.md R82, 60_exceptions.md R143: a request that fails validation is answered not-ok in one phase, with no
state change and under any configuration (so with no CSR access, which could fault); the kind recorded is that of the first
failing check. -/
def Obligations.FailingRequestChangesNothing : Prop :=
  ∀ (s : State) (i : Instr) (k : ErrKind), firstFailure s.cfg i = some k → (s.me.inflight = none ∨ isPrioSet i = false) →
    ∃ t, exec i s = .next t ∧ Failed s t k ∧ t.me.out = s.me.out

/-- 40_dispatcher.md R89: a phase delivers at most one response; it has `RVALID = 1` exactly when it is an ok response of
`GetPendingIRQ` or `GetPriority`, and the requester's output location becomes `RDATA` then and keeps its value otherwise. -/
def Obligations.ResponsesAndOutputLocation : Prop :=
  ∀ (s t : State) (i : Instr), s.cfg.legal = true → (∀ p, s.me.inflight = some p → p.w < priWords s.cfg) →
    exec i s = .next t →
    ((t.requester s.cur).responses = s.me.responses ∧ (t.requester s.cur).out = s.me.out ∧
      (t.requester s.cur).queue = s.me.queue) ∨
    ∃ resp : Response, (t.requester s.cur).responses = s.me.responses ++ [resp] ∧
      (t.requester s.cur).queue = s.me.queue.tail ∧
      resp.rvalid = (resp.status && usesOV i.opcode) ∧
      (t.requester s.cur).out = if resp.status && resp.rvalid then resp.rdata else s.me.out

/-! ## The machine -/

/-- 40_dispatcher.md R79, R87: when it is requester `r`'s turn and its outstanding request decodes to a well-formed
operation, the step is that operation's execution, with the turn used up and `r` the current requester. -/
def Obligations.StepRunsDecodedRequest : Prop :=
  ∀ (s : State) (r : Nat) (q : Request) (rest : List Request) (i : Instr), s.cfg.legal = true →
    s.turn = some (.run r) → (s.requester r).queue = q :: rest → decode q = .ok i → i.wellFormed = true →
    step s = exec i { s with schedule := s.schedule.tail, cur := r }

/-- 30_encoding.md R72: a request with a nonzero reserved field is answered not-ok, with no state change and with the kind
`E_RESERVED` recorded; a request with a zero one names an operation, so `OP` has no illegal value. -/
def Obligations.IllegalRequestAnsweredNotOk : Prop :=
  (∀ q : Request, q.ctrl.extractLsb' 4 28 = 0#28 → ∃ i, decode q = .ok i) ∧
  ∀ (s : State) (r : Nat) (q : Request) (rest : List Request), s.cfg.legal = true → s.turn = some (.run r) →
    (s.requester r).queue = q :: rest → q.ctrl.extractLsb' 4 28 ≠ 0#28 →
    ∃ t, step s = .next t ∧ Failed { s with schedule := s.schedule.tail, cur := r } t .reserved

/-- 60_exceptions.md R140: no step of the machine stops with a fault or a refusal. -/
def Obligations.NoStepStops : Prop :=
  ∀ s : State, Inv s → ∃ t, step s = .next t

/-- 10_state.md R31, R32, R33, R36: every step keeps the invariant: the priority file keeps its length and its zero low
nibbles, the table of requesters its form, every in-flight record is that of its requester's outstanding valid priority set,
and its copy shows the bytes that no operation reaches. -/
def Obligations.StepKeepsInvariant : Prop :=
  ∀ s t : State, Inv s → step s = .next t → Inv t

/-- The invariant holds in the model's reset state, whose open values are the model's choice: log entries 1 and 2. -/
def Obligations.InvariantAtReset : Prop :=
  Inv State.reset

/-- 40_dispatcher.md R91: the invariant holds at the start of every run: under every legal configuration, for every reset
draw, every finite request sequence of every requester and every order of the agents. (How a run's requests and order are
given to the machine is the model's choice: log entries 4 and 6.) -/
def Obligations.InvariantAtEveryStart : Prop :=
  ∀ (cfg : Config) (d : ResetDraw) (programs : List (List Request)) (schedule : List Turn), cfg.legal = true →
    Inv (startRun cfg d programs schedule)

/-- 70_reset_and_hazards.md R173: after reset `EN`, `PEND`, `SCR` and the top nibbles are whatever is drawn, the low nibbles
are zero, and no requester has anything in flight, outstanding or answered. -/
def Obligations.ResetLeavesEveryDraw : Prop :=
  ∀ (cfg : Config) (d : ResetDraw), cfg.assumeCortexMReset = false →
    (State.resetFrom cfg d).en = d.en ∧ (State.resetFrom cfg d).pend = d.pend ∧ (State.resetFrom cfg d).scr = d.scr ∧
    (State.resetFrom cfg d).pri.length = 4 * priWords cfg ∧
    (∀ k, k < 4 * priWords cfg → (State.resetFrom cfg d).priByte k = d.nibbles.getD k 0#4 ++ 0#4) ∧
    ∀ r, ((State.resetFrom cfg d).requester r).inflight = none ∧ ((State.resetFrom cfg d).requester r).queue = [] ∧
      ((State.resetFrom cfg d).requester r).responses = []

/-- 70_reset_and_hazards.md R174 (values "from general knowledge, not in source": log entry 3): with the switch, which is
off by default, reset sets `EN`, `PEND` and every priority byte to 0 and `SCR` to `0xFA050000`, whose grouping field is 0,
whatever the draws. -/
def Obligations.CortexMResetSwitch : Prop :=
  Config.initial.assumeCortexMReset = false ∧
  ∀ (cfg : Config) (d : ResetDraw), cfg.assumeCortexMReset = true →
    (State.resetFrom cfg d).en = 0#96 ∧ (State.resetFrom cfg d).pend = 0#96 ∧
    (∀ k, (State.resetFrom cfg d).priByte k = 0#8) ∧ (State.resetFrom cfg d).scr = 0xFA050000#32 ∧
    (State.resetFrom cfg d).scr.extractLsb' 8 3 = 0#3

/-- 70_reset_and_hazards.md R176: the configuration never changes, and for one outside its ranges no run exists. -/
def Obligations.ConfigurationFixed : Prop :=
  (∀ s t : State, step s = .next t → t.cfg = s.cfg) ∧
  (∀ s : State, s.cfg.legal = false → step s = .refused .illegalConfig) ∧
  (∀ cfg : Config, cfg.legal = true ↔
    (1 ≤ cfg.numIrq ∧ cfg.numIrq ≤ 96) ∧ (∀ r ∈ csrRanges cfg, r.1 % 4 = 0 ∧ r.1 + 4 * r.2 ≤ 2 ^ 32) ∧
      (csrRanges cfg).Pairwise RangesApart)

/-- 10_state.md R27: a step changes `EN` only as `EnableIRQ` or `DisableIRQ` does, at the bit of its id. -/
def Obligations.OnlyEnableAndDisableChangeEnables : Prop :=
  ∀ s t : State, Inv s → step s = .next t → t.en ≠ s.en →
    ∃ r q rest id, s.turn = some (.run r) ∧ (s.requester r).queue = q :: rest ∧ id.toNat < 96 ∧
      ((decode q = .ok (.enableIRQ id) ∧ t.en = s.en ||| BitVec.twoPow 96 id.toNat) ∨
       (decode q = .ok (.disableIRQ id) ∧ t.en = s.en &&& ~~~(BitVec.twoPow 96 id.toNat)))

/-- 10_state.md R29: a step changes `PEND` only as an environment event, `SetPendingIRQ` or `ClearPendingIRQ` does, at one
bit. -/
def Obligations.OnlyPendingAgentsChangePending : Prop :=
  ∀ s t : State, Inv s → step s = .next t → t.pend ≠ s.pend →
    (∃ i : Fin 96,
      (s.turn = some (.env (.setPending i)) ∧ t.pend = s.pend ||| BitVec.twoPow 96 i.val) ∨
      (s.turn = some (.env (.clearPending i)) ∧ t.pend = s.pend &&& ~~~(BitVec.twoPow 96 i.val))) ∨
    ∃ r q rest id, s.turn = some (.run r) ∧ (s.requester r).queue = q :: rest ∧ id.toNat < 96 ∧
      ((decode q = .ok (.setPendingIRQ id) ∧ t.pend = s.pend ||| BitVec.twoPow 96 id.toNat) ∨
       (decode q = .ok (.clearPendingIRQ id) ∧ t.pend = s.pend &&& ~~~(BitVec.twoPow 96 id.toNat)))

/-- 10_state.md R34: a step changes `SCR` only in phase `P3` of a priority set, to the value `ENC(m)` of its operation; and
no step reads `SCR`: from a state with another value in it, the step differs in nothing else. -/
def Obligations.ScrWrittenOnlyAndNeverRead : Prop :=
  (∀ s t : State, Inv s → step s = .next t → t.scr ≠ s.scr →
    ∃ r q rest, s.turn = some (.run r) ∧ (s.requester r).queue = q :: rest ∧ scrWriteOf s = some t.scr ∧
      ((∃ id p, decode q = .ok (.setPriorityRaw id p) ∧ t.scr = encOf s.cfg.enc .g0s16) ∨
       (∃ id g sub, decode q = .ok (.setPriorityGrouped id g sub) ∧ t.scr = encOf s.cfg.enc s.cfg.mode))) ∧
  (∀ (s t : State) (x : Word), Inv s → step s = .next t →
    ∃ t', step { s with scr := x } = .next t' ∧ { t' with scr := 0#32 } = { t with scr := 0#32 })

/-- 42_priority_ops.md R126, 20_memory.md R62: a step changes the priority file only in phase `P2` of a priority set, and
only in the word of its record. -/
def Obligations.PriorityFileWrittenOnlyInP2 : Prop :=
  ∀ s t : State, Inv s → step s = .next t → t.pri ≠ s.pri →
    ∃ r q rest p, s.turn = some (.run r) ∧ (s.requester r).queue = q :: rest ∧ setsPriority q = true ∧
      (s.requester r).inflight = some p ∧ p.next = .p2 ∧ (t.requester r).inflight = some { p with next := .p3 } ∧
      t.priWord p.w = mergeLane p.c p.lane p.byte &&& 0xF0F0F0F0#32 ∧ ∀ w, w ≠ p.w → t.priWord w = s.priWord w

/-- 10_state.md R33 (the spec's own inference): a byte that no operation reaches is never changed by a step, and the slot of
a valid id is never one. -/
def Obligations.UnreachableBytesNeverChange : Prop :=
  (∀ s t : State, Inv s → step s = .next t →
    ∀ k, reachableByte s.cfg k = false → t.priByte k = s.priByte k) ∧
  (∀ (cfg : Config) (id : Word), id.toNat < cfg.numIrq → reachableByte cfg (slot cfg.prioIndexMode id) = true)

/-- 10_state.md R32 ("from general knowledge, not in source": log entry 18): in every state that a run from reset reaches,
whatever the configuration, the draws, the requests and the order of the agents, the low nibble of every priority byte is
zero; and a write of a priority word ignores them. -/
def Obligations.LowNibblesStayZero : Prop :=
  (∀ (cfg : Config) (d : ResetDraw) (programs : List (List Request)) (schedule : List Turn) (n : Nat) (t : State),
    cfg.legal = true → runSteps n (startRun cfg d programs schedule) = .next t →
    (∀ k, (t.priByte k).extractLsb' 0 4 = 0#4) ∧ ∀ w, t.priWord w &&& 0x0F0F0F0F#32 = 0#32) ∧
  (∀ (s : State) (w : Nat) (v v' : Word), s.cfg.legal = true → w < priWords s.cfg →
    v &&& 0xF0F0F0F0#32 = v' &&& 0xF0F0F0F0#32 → csrWrite s (iprAddr s.cfg w) v = csrWrite s (iprAddr s.cfg w) v')

/-- 42_priority_ops.md R132, 10_state.md R35: after any number of steps `SCR` holds the value of the last `P3` among them,
`ENC(G0S16)` for a `SetPriorityRaw` and `ENC(MODE)` for a `SetPriorityGrouped`, or its value at the start if there was none. -/
def Obligations.ScrHoldsLastWrite : Prop :=
  (∀ (n : Nat) (s t : State), Inv s → runSteps n s = .next t → t.scr = (lastScrWrite n s).getD s.scr) ∧
  ∀ (s : State) (v : Word), scrWriteOf s = some v → ∃ r q, movingRequest s = some (r, q) ∧
    ((∃ id p, decode q = .ok (.setPriorityRaw id p) ∧ v = encOf s.cfg.enc .g0s16) ∨
     (∃ id g sub, decode q = .ok (.setPriorityGrouped id g sub) ∧ v = encOf s.cfg.enc s.cfg.mode))

/-- 70_reset_and_hazards.md R179: while the caller contract holds, a valid priority set of requester `r` is atomic: with any
steps of other requesters and of the environment between its phases, as long as none is a phase of another priority set, at
its end its slot holds its byte, every other priority byte is as at its start, `SCR` holds its value, and it is answered ok. -/
def Obligations.ContractMakesPrioritySetAtomic : Prop :=
  ∀ (s s1 s2 s3 s4 t : State) (r m n : Nat) (q : Request) (rest : List Request) (id : Word) (byte : Byte) (enc : Word),
    Inv s → s.turn = some (.run r) → (s.requester r).queue = q :: rest → (s.requester r).inflight = none →
    requestArgs s.cfg q = some (id, byte, enc) →
    step s = .next s1 → Undisturbed r m s1 → runSteps m s1 = .next s2 → s2.turn = some (.run r) →
    step s2 = .next s3 → Undisturbed r n s3 → runSteps n s3 = .next s4 → s4.turn = some (.run r) →
    step s4 = .next t →
    (∀ k, t.priByte k = if k = slot s.cfg.prioIndexMode id then byte else s.priByte k) ∧ t.scr = enc ∧
      (t.requester r).inflight = none ∧ (t.requester r).queue = rest ∧
      ∃ d, (t.requester r).responses = (s.requester r).responses ++ [⟨true, false, d⟩]

/-- 42_priority_ops.md R126, 70_reset_and_hazards.md R180: when two requesters are between `P1` and `P2` on one word, in
different lanes, and `b` writes first, then after `a`'s write `b`'s lane holds `a`'s stale copy of it: `b`'s update is lost. -/
def Obligations.InterleavedUpdateIsLost : Prop :=
  ∀ (s : State) (a b : Nat) (i j : Instr) (pa pb : PrioSet), s.cfg.legal = true → PriWf s → a ≠ b →
    isPrioSet i = true → isPrioSet j = true → (s.requester a).inflight = some pa → (s.requester b).inflight = some pb →
    pa.next = .p2 → pb.next = .p2 → pa.w < priWords s.cfg → pb.w = pa.w → pb.lane ≠ pa.lane →
    ∃ t u, exec j { s with cur := b } = .next t ∧ exec i { t with cur := a } = .next u ∧
      t.priByte (4 * pb.w + pb.lane.val) = pb.byte &&& 0xF0#8 ∧
      u.priByte (4 * pb.w + pb.lane.val) = laneOf pa.c pb.lane &&& 0xF0#8 ∧
      u.priByte (4 * pa.w + pa.lane.val) = pa.byte &&& 0xF0#8

/-- 60_exceptions.md R141: no step depends on the recorded kind: from a state with another kind recorded, the step has the
same outcome and differs in nothing but the recorded kind. -/
def Obligations.DiagnosticKindNotObservable : Prop :=
  ∀ (s : State) (d : Option ErrKind),
    match step s, step { s with diag := d } with
    | .next t, .next t' => { t with diag := none } = { t' with diag := none }
    | .fault f, .fault f' => f = f'
    | .refused x, .refused x' => x = x'
    | _, _ => False

/-- 40_dispatcher.md R88, R94: over any run the responses of each requester are added one for each request that leaves its
sequence, in order: none is reordered, skipped or repeated. -/
def Obligations.OneResponsePerRequest : Prop :=
  ∀ (n : Nat) (s t : State), Inv s → runSteps n s = .next t → ∀ r,
    ∃ done answers, (s.requester r).queue = done ++ (t.requester r).queue ∧
      (t.requester r).responses = (s.requester r).responses ++ answers ∧ answers.length = done.length

/-- First clause, read from 20_memory.md R57 to R59: a step leaves every requester but the one whose turn it is as it was.
Second clause, which no rule gives because the spec has no such steps, and which states the model's own choices: a turn of a
requester with nothing outstanding (log entry 16) and a step after the run has ended (log entry 4) change no register and no
requester. What an environment event changes is the statement `EnvironmentEvent`. -/
def Obligations.OnlyTheMoverActs : Prop :=
  ∀ s t : State, Inv s → step s = .next t →
    (∀ r, s.turn ≠ some (.run r) → t.requester r = s.requester r) ∧
    (movingRequest s = none → (∀ e, s.turn ≠ some (.env e)) → CsrKept s t ∧ ∀ r, t.requester r = s.requester r)

/-- 40_dispatcher.md R91, 70_reset_and_hazards.md R182: after at most `work` steps every request has been answered, no
in-flight record is left and no turn is scheduled, and the machine then stays as it is. That a requester's turn comes at all
rests on the schedule and, when it is used up, on the model's own drain order: log entry 4. -/
def Obligations.EveryRunEnds : Prop :=
  ∀ s : State, Inv s → ∃ t, runSteps s.work s = .next t ∧ Finished t ∧ step t = .next t
end

