-- ==== Sys2Proof/Laws/State.lean ====
section
/-! SUPPORT. One lemma for each field and each named update of the state, so that no later proof unfolds an update. -/

namespace Sys2Proof.Laws

open Sys2Proof Sys2Proof.Machine

section
variable (s : State) (r : Nat) (q : Requester) (resp : Response) (x : Option PrioSet) (v : Word) (k : ErrKind)

/-! ### `setRequester` -/
@[simp] theorem setRequester_cfg : (s.setRequester r q).cfg = s.cfg := rfl
@[simp] theorem setRequester_en : (s.setRequester r q).en = s.en := rfl
@[simp] theorem setRequester_pend : (s.setRequester r q).pend = s.pend := rfl
@[simp] theorem setRequester_pri : (s.setRequester r q).pri = s.pri := rfl
@[simp] theorem setRequester_scr : (s.setRequester r q).scr = s.scr := rfl
@[simp] theorem setRequester_cur : (s.setRequester r q).cur = s.cur := rfl
@[simp] theorem setRequester_schedule : (s.setRequester r q).schedule = s.schedule := rfl
@[simp] theorem setRequester_draws : (s.setRequester r q).draws = s.draws := rfl
@[simp] theorem setRequester_diag : (s.setRequester r q).diag = s.diag := rfl
@[simp] theorem setRequester_requesters : (s.setRequester r q).requesters = insertReq r q s.requesters := rfl

/-! ### `setInflight` -/
@[simp] theorem setInflight_cfg : (setInflight x s).cfg = s.cfg := rfl
@[simp] theorem setInflight_en : (setInflight x s).en = s.en := rfl
@[simp] theorem setInflight_pend : (setInflight x s).pend = s.pend := rfl
@[simp] theorem setInflight_pri : (setInflight x s).pri = s.pri := rfl
@[simp] theorem setInflight_scr : (setInflight x s).scr = s.scr := rfl
@[simp] theorem setInflight_cur : (setInflight x s).cur = s.cur := rfl
@[simp] theorem setInflight_schedule : (setInflight x s).schedule = s.schedule := rfl
@[simp] theorem setInflight_draws : (setInflight x s).draws = s.draws := rfl
@[simp] theorem setInflight_diag : (setInflight x s).diag = s.diag := rfl

/-! ### `respondOk` -/
@[simp] theorem respondOk_cfg : (respondOk s).cfg = s.cfg := rfl
@[simp] theorem respondOk_en : (respondOk s).en = s.en := rfl
@[simp] theorem respondOk_pend : (respondOk s).pend = s.pend := rfl
@[simp] theorem respondOk_pri : (respondOk s).pri = s.pri := rfl
@[simp] theorem respondOk_scr : (respondOk s).scr = s.scr := rfl
@[simp] theorem respondOk_cur : (respondOk s).cur = s.cur := rfl
@[simp] theorem respondOk_schedule : (respondOk s).schedule = s.schedule := rfl
@[simp] theorem respondOk_draws : (respondOk s).draws = s.draws + 1 := rfl
@[simp] theorem respondOk_diag : (respondOk s).diag = s.diag := rfl

/-! ### `respondOkClearing` -/
@[simp] theorem respondOkClearing_cfg : (respondOkClearing s).cfg = s.cfg := rfl
@[simp] theorem respondOkClearing_en : (respondOkClearing s).en = s.en := rfl
@[simp] theorem respondOkClearing_pend : (respondOkClearing s).pend = s.pend := rfl
@[simp] theorem respondOkClearing_pri : (respondOkClearing s).pri = s.pri := rfl
@[simp] theorem respondOkClearing_scr : (respondOkClearing s).scr = s.scr := rfl
@[simp] theorem respondOkClearing_cur : (respondOkClearing s).cur = s.cur := rfl
@[simp] theorem respondOkClearing_schedule : (respondOkClearing s).schedule = s.schedule := rfl
@[simp] theorem respondOkClearing_draws : (respondOkClearing s).draws = s.draws + 1 := rfl
@[simp] theorem respondOkClearing_diag : (respondOkClearing s).diag = s.diag := rfl

/-! ### `respondData` -/
@[simp] theorem respondData_cfg : (respondData v s).cfg = s.cfg := rfl
@[simp] theorem respondData_en : (respondData v s).en = s.en := rfl
@[simp] theorem respondData_pend : (respondData v s).pend = s.pend := rfl
@[simp] theorem respondData_pri : (respondData v s).pri = s.pri := rfl
@[simp] theorem respondData_scr : (respondData v s).scr = s.scr := rfl
@[simp] theorem respondData_cur : (respondData v s).cur = s.cur := rfl
@[simp] theorem respondData_schedule : (respondData v s).schedule = s.schedule := rfl
@[simp] theorem respondData_draws : (respondData v s).draws = s.draws := rfl
@[simp] theorem respondData_diag : (respondData v s).diag = s.diag := rfl

/-! ### `failWith` -/
@[simp] theorem failWith_cfg : (failWith k s).cfg = s.cfg := rfl
@[simp] theorem failWith_en : (failWith k s).en = s.en := rfl
@[simp] theorem failWith_pend : (failWith k s).pend = s.pend := rfl
@[simp] theorem failWith_pri : (failWith k s).pri = s.pri := rfl
@[simp] theorem failWith_scr : (failWith k s).scr = s.scr := rfl
@[simp] theorem failWith_cur : (failWith k s).cur = s.cur := rfl
@[simp] theorem failWith_schedule : (failWith k s).schedule = s.schedule := rfl
@[simp] theorem failWith_draws : (failWith k s).draws = s.draws + 1 := rfl
@[simp] theorem failWith_diag : (failWith k s).diag = some k := rfl

/-! ### `beginRun` -/
@[simp] theorem beginRun_cfg : (s.beginRun r).cfg = s.cfg := rfl
@[simp] theorem beginRun_en : (s.beginRun r).en = s.en := rfl
@[simp] theorem beginRun_pend : (s.beginRun r).pend = s.pend := rfl
@[simp] theorem beginRun_pri : (s.beginRun r).pri = s.pri := rfl
@[simp] theorem beginRun_scr : (s.beginRun r).scr = s.scr := rfl
@[simp] theorem beginRun_cur : (s.beginRun r).cur = r := rfl
@[simp] theorem beginRun_schedule : (s.beginRun r).schedule = s.schedule.tail := rfl
@[simp] theorem beginRun_draws : (s.beginRun r).draws = s.draws := rfl
@[simp] theorem beginRun_diag : (s.beginRun r).diag = s.diag := rfl
@[simp] theorem beginRun_requesters : (s.beginRun r).requesters = s.requesters := rfl
@[simp] theorem beginRun_requester (r' : Nat) : (s.beginRun r).requester r' = s.requester r' := rfl
@[simp] theorem beginRun_me : (s.beginRun r).me = s.requester r := rfl

end

/-! ### `applyEnv`: a change of `PEND` alone -/
section
variable (e : EnvEvent) (s : State)

@[simp] theorem applyEnv_cfg : (applyEnv e s).cfg = s.cfg := by cases e <;> rfl
@[simp] theorem applyEnv_en : (applyEnv e s).en = s.en := by cases e <;> rfl
@[simp] theorem applyEnv_pri : (applyEnv e s).pri = s.pri := by cases e <;> rfl
@[simp] theorem applyEnv_scr : (applyEnv e s).scr = s.scr := by cases e <;> rfl
@[simp] theorem applyEnv_requesters : (applyEnv e s).requesters = s.requesters := by cases e <;> rfl
@[simp] theorem applyEnv_requester (r : Nat) : (applyEnv e s).requester r = s.requester r := by cases e <;> rfl
@[simp] theorem applyEnv_cur : (applyEnv e s).cur = s.cur := by cases e <;> rfl
@[simp] theorem applyEnv_schedule : (applyEnv e s).schedule = s.schedule := by cases e <;> rfl
@[simp] theorem applyEnv_draws : (applyEnv e s).draws = s.draws := by cases e <;> rfl
@[simp] theorem applyEnv_diag : (applyEnv e s).diag = s.diag := by cases e <;> rfl

end

end Sys2Proof.Laws
end

