-- ==== Sys2Proof/Laws/Table.lean ====
section
/-! SUPPORT. The table of requesters: reading after a write, and its canonical form. -/

namespace Sys2Proof.Laws

open Sys2Proof Sys2Proof.Machine

/-- A write leaves every other requester alone. -/
theorem lookupReq_insertReq_other {r r' : Nat} (h : r' ≠ r) (q : Requester) (t : List (Nat × Requester)) :
    lookupReq (insertReq r q t) r' = lookupReq t r' := by
  induction t with
  | nil => simp only [insertReq]; split <;> simp [lookupReq, Ne.symm h]
  | cons e rest ih =>
    obtain ⟨k, p⟩ := e
    simp only [insertReq]
    split_ifs with h1 h2 h3 h4
    · rfl
    · simp [lookupReq, Ne.symm h]
    · subst h3; simp [lookupReq, Ne.symm h]
    · subst h3; simp [lookupReq, Ne.symm h]
    · simp only [lookupReq, ih]

/-- A write of a requester that is not idle is read back. -/
theorem lookupReq_insertReq_same {q : Requester} (hq : q ≠ Requester.idle) (r : Nat) (t : List (Nat × Requester)) :
    lookupReq (insertReq r q t) r = q := by
  induction t with
  | nil => simp [insertReq, hq, lookupReq]
  | cons e rest ih =>
    obtain ⟨k, p⟩ := e
    simp only [insertReq, hq, if_false]
    split_ifs with h1 h3
    · simp [lookupReq]
    · simp [lookupReq]
    · simp [lookupReq, Ne.symm h3, ih]

theorem mem_insertReq {r : Nat} {q : Requester} {t : List (Nat × Requester)} {e : Nat × Requester}
    (h : e ∈ insertReq r q t) : e = (r, q) ∨ e ∈ t := by
  induction t with
  | nil => simp only [insertReq] at h; split at h <;> simp_all
  | cons e' rest ih =>
    obtain ⟨k, p⟩ := e'
    simp only [insertReq] at h
    split_ifs at h with h1 h2 h3 h4
    · exact .inr h
    · simpa using h
    · exact .inr (List.mem_cons_of_mem _ h)
    · rcases List.mem_cons.1 h with h | h
      · exact .inl h
      · exact .inr (List.mem_cons_of_mem _ h)
    · rcases List.mem_cons.1 h with h | h
      · exact .inr (h ▸ List.mem_cons_self)
      · exact (ih h).imp_right (List.mem_cons_of_mem _)

/-- Every write keeps the canonical form of the table. -/
theorem insertReq_wf {t : List (Nat × Requester)} (h : TableWf t) (r : Nat) (q : Requester) : TableWf (insertReq r q t) := by
  refine ⟨?_, fun e he => ?_⟩
  · obtain ⟨h, -⟩ := h
    induction t with
    | nil => simp only [insertReq]; split <;> simp
    | cons e rest ih =>
      obtain ⟨k, p⟩ := e
      rw [List.pairwise_cons] at h
      simp only [insertReq]
      split_ifs with h1 h2 h3 h4
      · exact List.pairwise_cons.2 h
      · refine List.pairwise_cons.2 ⟨fun e he => ?_, List.pairwise_cons.2 h⟩
        rcases List.mem_cons.1 he with rfl | he
        · exact h1
        · exact lt_trans h1 (h.1 _ he)
      · exact h.2
      · subst h3; exact List.pairwise_cons.2 h
      · refine List.pairwise_cons.2 ⟨fun e he => ?_, ih h.2⟩
        rcases mem_insertReq he with rfl | he
        · show k < r; omega
        · exact h.1 _ he
  · by_cases hq : q = Requester.idle
    · subst hq
      have : ∀ t : List (Nat × Requester), e ∈ insertReq r Requester.idle t → e ∈ t := by
        intro t
        induction t with
        | nil => simp [insertReq]
        | cons e' rest ih =>
          obtain ⟨k, p⟩ := e'
          simp only [insertReq, if_true]
          split_ifs with h1 h2
          · exact id
          · exact List.mem_cons_of_mem _
          · intro h
            rcases List.mem_cons.1 h with h | h
            · exact h ▸ List.mem_cons_self
            · exact List.mem_cons_of_mem _ (ih h)
      exact h.2 e (this t he)
    · rcases mem_insertReq he with rfl | he
      · exact hq
      · exact h.2 e he

/-- In a canonical table, an entry is what the lookup of its number gives. -/
theorem lookupReq_of_mem {t : List (Nat × Requester)} (h : t.Pairwise (fun e e' => e.1 < e'.1)) {e : Nat × Requester}
    (he : e ∈ t) : lookupReq t e.1 = e.2 := by
  induction t with
  | nil => simp at he
  | cons e' rest ih =>
    obtain ⟨k, p⟩ := e'
    rw [List.pairwise_cons] at h
    rcases List.mem_cons.1 he with rfl | he
    · simp [lookupReq]
    · have : k ≠ e.1 := (h.1 _ he).ne
      simp [lookupReq, this, ih h.2 he]

/-- A requester that is not idle stands in the table. -/
theorem mem_of_lookupReq {t : List (Nat × Requester)} {r : Nat} (h : lookupReq t r ≠ Requester.idle) :
    (r, lookupReq t r) ∈ t := by
  induction t with
  | nil => simp [lookupReq] at h
  | cons e rest ih =>
    obtain ⟨k, p⟩ := e
    simp only [lookupReq] at h ⊢
    split at h
    · next hk => subst hk; simp
    · next hk => simp only [hk, if_false]; exact List.mem_cons_of_mem _ (ih h)

/-! ### The same, for the state -/

theorem setRequester_requester_other (s : State) {r r' : Nat} (h : r' ≠ r) (q : Requester) :
    (s.setRequester r q).requester r' = s.requester r' :=
  lookupReq_insertReq_other h q _

theorem setRequester_requester_same (s : State) (r : Nat) {q : Requester} (h : q ≠ Requester.idle) :
    (s.setRequester r q).requester r = q :=
  lookupReq_insertReq_same h r _

theorem receive_ne_idle (q : Requester) (resp : Response) (x : Option PrioSet) : q.receive resp x ≠ Requester.idle := by
  intro h
  have := congrArg Requester.responses h
  simp [Requester.receive, Requester.idle] at this

/-- A delivery changes the current requester as `receive` says. -/
theorem deliver_requester_cur (resp : Response) (x : Option PrioSet) (s : State) :
    (deliver resp x s).requester s.cur = s.me.receive resp x :=
  setRequester_requester_same s _ (receive_ne_idle _ _ _)

/-- A delivery leaves every other requester alone. -/
theorem deliver_requester_other (resp : Response) (x : Option PrioSet) (s : State) {r : Nat} (h : r ≠ s.cur) :
    (deliver resp x s).requester r = s.requester r :=
  setRequester_requester_other s h _

/-- Every requester of a table with the invariant's per-requester property has it, if the idle one has it. -/
theorem forall_lookup {P : Requester → Prop} (hi : P Requester.idle) {t : List (Nat × Requester)} (h : ∀ e ∈ t, P e.2)
    (r : Nat) : P (lookupReq t r) := by
  by_cases hr : lookupReq t r = Requester.idle
  · rw [hr]; exact hi
  · exact h _ (mem_of_lookupReq hr)

/-! ### Whose turn it is -/

/-- With no requester active, no listed queue holds a request. -/
theorem firstActive_none {t : List (Nat × Requester)} (h : firstActive t = none) : ∀ e ∈ t, e.2.queue = [] := by
  induction t with
  | nil => simp
  | cons e rest ih =>
    obtain ⟨k, p⟩ := e
    simp only [firstActive] at h
    split at h
    · next hp =>
      intro e he
      rcases List.mem_cons.1 he with rfl | he
      · simpa using hp
      · exact ih h e he
    · cases h

/-- The requester that `firstActive` names has a request outstanding. -/
theorem firstActive_some {t : List (Nat × Requester)} {r : Nat} (h : firstActive t = some r) :
    ∃ q, (r, q) ∈ t ∧ q.queue ≠ [] := by
  induction t with
  | nil => simp [firstActive] at h
  | cons e rest ih =>
    obtain ⟨k, p⟩ := e
    simp only [firstActive] at h
    split at h
    · obtain ⟨q, hm, hq⟩ := ih h; exact ⟨q, List.mem_cons_of_mem _ hm, hq⟩
    · next hp => cases h; exact ⟨p, List.mem_cons_self, by simpa using hp⟩

end Sys2Proof.Laws
end

