-- ==== Sys2Proof/Laws/Csr.lean ====
section
/-! SUPPORT. The CSR accesses: which register an address reaches under a legal configuration, and what each read and write
does (20_memory.md R46, R52, R53). -/

namespace Sys2Proof.Laws

open Sys2Proof Sys2Proof.Machine

/-! ### The address map -/

theorem wordIn_eq_some {base : Word} {n a j : Nat} :
    wordIn base n a = some j ↔ a = base.toNat + 4 * j ∧ j < n := by
  unfold wordIn
  split
  · next h =>
    simp only [Option.some.injEq]
    omega
  · next h =>
    simp only [false_iff, reduceCtorEq]
    omega

theorem wordIn_eq_none {base : Word} {n a : Nat} (h : ∀ j, j < n → a ≠ base.toNat + 4 * j) : wordIn base n a = none := by
  cases hw : wordIn base n a with
  | none => rfl
  | some j => obtain ⟨ha, hj⟩ := wordIn_eq_some.1 hw; exact absurd ha (h j hj)

/-- What a legal configuration says of the numbers (20_memory.md R46, 00_scope.md R8). -/
theorem legal_ranges {cfg : Config} (h : cfg.legal = true) :
    (1 ≤ cfg.numIrq ∧ cfg.numIrq ≤ 96) ∧ (∀ r ∈ csrRanges cfg, r.1 % 4 = 0) ∧
      (∀ r ∈ csrRanges cfg, r.1 + 4 * r.2 ≤ 2 ^ 32) ∧ (csrRanges cfg).Pairwise RangesApart := by
  simp only [Config.legal, Config.numIrqLegal, Config.basesAligned, Config.addressesFit, Config.rangesDisjoint,
    Bool.and_eq_true, decide_eq_true_eq, List.all_eq_true, beq_iff_eq] at h
  exact ⟨h.1.1.1, h.1.1.2, h.1.2, h.2⟩

/-- An address of one range is no address of a range apart from it. -/
theorem wordIn_apart {base base' : Word} {n m j : Nat} (h : RangesApart (base.toNat, n) (base'.toNat, m)) (hj : j < m) :
    wordIn base n (base'.toNat + 4 * j) = none :=
  wordIn_eq_none fun k hk => by
    rcases h with h | h <;> simp only at h <;> omega

/-- An address of the map reaches its own register and no other (20_memory.md R46, R48). -/
theorem csrAt_addrOf {cfg : Config} (h : cfg.legal = true) {c : Csr} (hc : inMap cfg c = true) :
    csrAt cfg (addrOf cfg c) = some c := by
  have hp := (legal_ranges h).2.2.2
  simp only [csrRanges, List.pairwise_cons, List.mem_cons, List.not_mem_nil, or_false, forall_eq_or_imp,
    forall_eq, IsEmpty.forall_iff, implies_true, List.Pairwise.nil, and_true] at hp
  obtain ⟨⟨h12, h13, h14, h15, h16⟩, ⟨h23, h24, h25, h26⟩, ⟨h34, h35, h36⟩, ⟨h45, h46⟩, h56⟩ := hp
  have own : ∀ (base : Word) (n j : Nat), j < n → wordIn base n (base.toNat + 4 * j) = some j :=
    fun base n j hj => wordIn_eq_some.2 ⟨rfl, hj⟩
  cases c <;> simp only [inMap, decide_eq_true_eq] at hc <;>
    simp only [addrOf, iserAddr, icerAddr, isprAddr, icprAddr, iprAddr, scrAddrOf, csrAt]
  case iser b => rw [own _ _ _ hc]
  case icer b => rw [wordIn_apart h12 hc, own _ _ _ hc]
  case ispr b => rw [wordIn_apart h13 hc, wordIn_apart h23 hc, own _ _ _ hc]
  case icpr b => rw [wordIn_apart h14 hc, wordIn_apart h24 hc, wordIn_apart h34 hc, own _ _ _ hc]
  case ipr w =>
    rw [wordIn_apart h15 hc, wordIn_apart h25 hc, wordIn_apart h35 hc, wordIn_apart h45 hc, own _ _ _ hc]
  case scr =>
    have h0 : (0 : Nat) < 1 := by omega
    rw [show cfg.scrAddr.toNat = cfg.scrAddr.toNat + 4 * 0 from rfl, wordIn_apart h16 h0, wordIn_apart h26 h0,
      wordIn_apart h36 h0, wordIn_apart h46 h0, wordIn_apart h56 h0, own _ _ _ h0]

/-- What an address reaches has that address, and is a register of the map. -/
theorem addrOf_csrAt {cfg : Config} {a : Nat} {c : Csr} (h : csrAt cfg a = some c) : addrOf cfg c = a ∧ inMap cfg c = true := by
  unfold csrAt at h
  split at h
  · next h' => cases h; have := wordIn_eq_some.1 h'; simp [addrOf, iserAddr, inMap, this]
  split at h
  · next h' => cases h; have := wordIn_eq_some.1 h'; simp [addrOf, icerAddr, inMap, this]
  split at h
  · next h' => cases h; have := wordIn_eq_some.1 h'; simp [addrOf, isprAddr, inMap, this]
  split at h
  · next h' => cases h; have := wordIn_eq_some.1 h'; simp [addrOf, icprAddr, inMap, this]
  split at h
  · next h' => cases h; have := wordIn_eq_some.1 h'; simp [addrOf, iprAddr, inMap, this]
  split at h
  · next h' =>
    cases h
    obtain ⟨h1, h2⟩ := wordIn_eq_some.1 h'
    simp [addrOf, scrAddrOf, inMap]; omega
  · cases h

theorem pword_lt_priWords {cfg : Config} {id : Word} (hid : id.toNat < cfg.numIrq) :
    pword id < priWords cfg := by
  simp only [pword, priWords]; omega

/-! ### The words of a 96-bit vector -/

theorem getLsbD_lineWord (v : Lines) (b i : Nat) : (lineWord v b).getLsbD i = (decide (i < 32) && v.getLsbD (32 * b + i)) := by
  simp [lineWord]

/-- Bit `i` of a vector whose word `b` is replaced. -/
theorem getLsbD_setLineWord (v : Lines) (b : Nat) (x : Word) {i : Nat} (hi : i < 96) :
    (setLineWord v b x).getLsbD i = if 32 * b ≤ i ∧ i < 32 * b + 32 then x.getLsbD (i - 32 * b) else v.getLsbD i := by
  have h32 : ∀ j, 32 ≤ j → x.getLsbD j = false := fun j hj => BitVec.getLsbD_of_ge _ _ hj
  simp only [setLineWord, BitVec.getLsbD_or, BitVec.getLsbD_and, BitVec.getLsbD_not, BitVec.getLsbD_shiftLeft,
    BitVec.getLsbD_setWidth, BitVec.getLsbD_allOnes, hi, decide_true, Bool.true_and]
  by_cases h1 : i < 32 * b
  · have h2 : ¬ (32 * b ≤ i ∧ i < 32 * b + 32) := by omega
    simp [h1, h2]
  · have h96 : i - 32 * b < 96 := by omega
    by_cases h2 : i < 32 * b + 32
    · have h3 : 32 * b ≤ i ∧ i < 32 * b + 32 := by omega
      have h4 : i - 32 * b < 32 := by omega
      simp [h1, h3, h4, h96]
    · have h3 : ¬ (32 * b ≤ i ∧ i < 32 * b + 32) := by omega
      have h4 : ¬ (i - 32 * b < 32) := by omega
      simp [h1, h3, h4, h32 _ (not_lt.1 h4)]

/-- The words after the word `b` is replaced. -/
theorem lineWord_setLineWord (v : Lines) {b b' : Nat} (hb : b < 3) (hb' : b' < 3) (x : Word) :
    lineWord (setLineWord v b x) b' = if b' = b then x else lineWord v b' := by
  apply BitVec.eq_of_getLsbD_eq
  intro i hi
  rw [getLsbD_lineWord, getLsbD_setLineWord _ _ _ (by omega)]
  by_cases h : b' = b
  · subst h
    have h1 : 32 * b' ≤ 32 * b' + i ∧ 32 * b' + i < 32 * b' + 32 := by omega
    simp [h1, hi]
  · have h1 : ¬ (32 * b ≤ 32 * b' + i ∧ 32 * b' + i < 32 * b + 32) := by omega
    simp only [h1, if_false, h, getLsbD_lineWord]

/-! ### The id's own bit (40_dispatcher.md R83) -/

theorem bank_lt {id : Word} (h : id.toNat < 96) : bank id < 3 := by
  simp only [bank]; omega

theorem getLsbD_bitmask (id : Word) (i : Nat) : (bitmask id).getLsbD i = decide (i = bitpos id) := by
  have h : bitpos id < 32 := Nat.mod_lt _ (by omega)
  simp only [bitmask, BitVec.getLsbD_shiftLeft, BitVec.getLsbD_one]
  by_cases h1 : i = bitpos id
  · subst h1; simp [h]
  · by_cases h2 : i < bitpos id
    · simp [h1, h2]
    · have : i - bitpos id ≠ 0 := by omega
      simp [h1, this]

/-- A line in the word of an id's bank: its place in the word, and whether it is the id's own. -/
theorem line_in_bank {id : Word} {i : Nat} (h1 : 32 * bank id ≤ i ∧ i < 32 * bank id + 32) :
    i - 32 * bank id < 32 ∧ 32 * bank id + (i - 32 * bank id) = i ∧
      (i - 32 * bank id = bitpos id ↔ id.toNat = i) := by
  simp only [bank, bitpos] at h1 ⊢
  omega

theorem line_not_in_bank {id : Word} {i : Nat} (h1 : ¬ (32 * bank id ≤ i ∧ i < 32 * bank id + 32)) : id.toNat ≠ i := by
  simp only [bank] at h1
  omega

/-- The write of an id's own bit mask through a write-1-to-set view sets that bit and no other. -/
theorem set_own_bit (v : Lines) {id : Word} (h : id.toNat < 96) :
    setLineWord v (bank id) (lineWord v (bank id) ||| bitmask id) = v ||| BitVec.twoPow 96 id.toNat := by
  apply BitVec.eq_of_getLsbD_eq
  intro i hi
  rw [getLsbD_setLineWord _ _ _ hi, BitVec.getLsbD_or, BitVec.getLsbD_or, getLsbD_lineWord, getLsbD_bitmask,
    BitVec.getLsbD_twoPow]
  by_cases h1 : 32 * bank id ≤ i ∧ i < 32 * bank id + 32
  · obtain ⟨h2, h3, h4⟩ := line_in_bank h1
    simp [h1, h2, h3, h4, h]
  · simp [h1, line_not_in_bank h1]

/-- The write of an id's own bit mask through a write-1-to-clear view clears that bit and no other. -/
theorem clear_own_bit (v : Lines) {id : Word} (h : id.toNat < 96) :
    setLineWord v (bank id) (lineWord v (bank id) &&& ~~~(bitmask id)) = v &&& ~~~(BitVec.twoPow 96 id.toNat) := by
  apply BitVec.eq_of_getLsbD_eq
  intro i hi
  rw [getLsbD_setLineWord _ _ _ hi, BitVec.getLsbD_and, BitVec.getLsbD_and, BitVec.getLsbD_not, BitVec.getLsbD_not,
    getLsbD_lineWord, getLsbD_bitmask, BitVec.getLsbD_twoPow]
  by_cases h1 : 32 * bank id ≤ i ∧ i < 32 * bank id + 32
  · obtain ⟨h2, h3, h4⟩ := line_in_bank h1
    simp [h1, h2, h3, h4, h, hi]
  · simp [h1, line_not_in_bank h1, hi]

/-- The id's own bit, read through the word of its bank. -/
theorem lineWord_own_bit (v : Lines) (id : Word) : (lineWord v (bank id)).getLsbD (bitpos id) = v.getLsbD id.toNat := by
  have h : bitpos id < 32 := Nat.mod_lt _ (by omega)
  have h2 : 32 * bank id + bitpos id = id.toNat := by simp only [bank, bitpos]; omega
  rw [getLsbD_lineWord, h2]; simp [h]

/-! ### The priority file -/

theorem getLsbD_laneOf (w : Word) (l : Fin 4) (i : Nat) :
    (laneOf w l).getLsbD i = (decide (i < 8) && w.getLsbD (8 * l.val + i)) := by
  simp [laneOf]

/-- A lane of a merged word: the byte written in its own lane, the copy in the others (42_priority_ops.md R126). -/
theorem laneOf_mergeLane (c : Word) (l l' : Fin 4) (byte : Byte) :
    laneOf (mergeLane c l byte) l' = if l' = l then byte else laneOf c l' := by
  apply BitVec.eq_of_getLsbD_eq
  intro i hi
  have hb : ∀ j, 8 ≤ j → byte.getLsbD j = false := fun j hj => BitVec.getLsbD_of_ge _ _ hj
  have hff : ∀ j, (0xFF#32).getLsbD j = decide (j < 8) := by
    intro j
    have : (0xFF#32) = (BitVec.allOnes 8).setWidth 32 := by decide
    rw [this]; simp only [BitVec.getLsbD_setWidth, BitVec.getLsbD_allOnes]
    by_cases h : j < 8
    · have : j < 32 := by omega
      simp [h, this]
    · simp [h]
  rw [getLsbD_laneOf]
  simp only [mergeLane, BitVec.getLsbD_or, BitVec.getLsbD_and, BitVec.getLsbD_not, BitVec.getLsbD_shiftLeft,
    BitVec.getLsbD_setWidth, hff]
  have h32 : 8 * l'.val + i < 32 := by omega
  by_cases h : l' = l
  · subst h
    have h2 : 8 * l'.val + i - 8 * l'.val = i := by omega
    have h3 : ¬ (8 * l'.val + i < 8 * l'.val) := by omega
    have h4 : i < 32 := by omega
    simp [h2, h3, hi, h4, h32]
  · have hne : l'.val ≠ l.val := fun e => h (Fin.ext e)
    simp only [h, if_false, getLsbD_laneOf, hi, h32, decide_true, Bool.true_and]
    by_cases h1 : 8 * l'.val + i < 8 * l.val
    · simp [h1]
    · have h2 : ¬ (8 * l'.val + i - 8 * l.val < 8) := by omega
      simp [h1, h2, hb _ (not_lt.1 h2)]

/-- A lane of the priority word is its byte of the file (20_memory.md R49). -/
theorem laneOf_priWord (s : State) (w : Nat) (l : Fin 4) : laneOf (s.priWord w) l = s.priByte (4 * w + l.val) := by
  apply BitVec.eq_of_getLsbD_eq
  intro i hi
  rw [getLsbD_laneOf]
  simp only [State.priWord, BitVec.getLsbD_append]
  have hl := l.isLt
  match l with
  | ⟨0, _⟩ => simp [hi]
  | ⟨1, _⟩ => simp [hi, show ¬ (8 + i < 8) by omega, show 8 + i - 8 = i by omega]
  | ⟨2, _⟩ =>
    simp [hi, show ¬ (16 + i < 8) by omega, show ¬ (16 + i - 8 < 8) by omega, show 16 + i - 8 - 8 = i by omega]
  | ⟨3, _⟩ =>
    simp [hi, show ¬ (24 + i < 8) by omega, show ¬ (24 + i - 8 < 8) by omega, show ¬ (24 + i - 8 - 8 < 8) by omega,
      show 24 + i - 8 - 8 - 8 = i by omega]

theorem length_setPriWord (pri : List Byte) (w : Nat) (v : Word) : (setPriWord pri w v).length = pri.length := by
  simp [setPriWord]

/-- A byte of the file after its word `w` is replaced. -/
theorem getD_setPriWord (pri : List Byte) {w : Nat} (hw : 4 * w + 3 < pri.length) (v : Word) (k : Nat) :
    (setPriWord pri w v).getD k 0#8 =
      if h : 4 * w ≤ k ∧ k < 4 * w + 4 then laneOf v ⟨k - 4 * w, by omega⟩ else pri.getD k 0#8 := by
  simp only [setPriWord, List.getD_eq_getElem?_getD, List.getElem?_set, List.length_set]
  by_cases h : 4 * w ≤ k ∧ k < 4 * w + 4
  · rw [dif_pos h]
    obtain h0 | h0 | h0 | h0 : k = 4 * w ∨ k = 4 * w + 1 ∨ k = 4 * w + 2 ∨ k = 4 * w + 3 := by omega
    · subst h0
      have : 4 * w < pri.length := by omega
      simp [this]
    · subst h0
      have : 4 * w + 1 < pri.length := by omega
      simp [this]
    · subst h0
      have : 4 * w + 2 < pri.length := by omega
      simp [this]
    · subst h0
      simp [hw]
  · rw [dif_neg h]
    have h0 : 4 * w ≠ k := by omega
    have h1 : 4 * w + 1 ≠ k := by omega
    have h2 : 4 * w + 2 ≠ k := by omega
    have h3 : 4 * w + 3 ≠ k := by omega
    simp [h0, h1, h2, h3]

/-- A lane of a word whose low nibbles are masked. -/
theorem laneOf_masked (v : Word) (l : Fin 4) : laneOf (v &&& 0xF0F0F0F0#32) l = laneOf v l &&& 0xF0#8 := by
  have : laneOf (0xF0F0F0F0#32) l = 0xF0#8 := by revert l; decide
  rw [← this]
  apply BitVec.eq_of_getLsbD_eq
  intro i hi
  rw [BitVec.getLsbD_and, getLsbD_laneOf, getLsbD_laneOf, getLsbD_laneOf, BitVec.getLsbD_and]
  simp [hi]

/-- Every write of a priority word keeps the form of the file: its length, and the low nibbles zero (10_state.md R32). -/
theorem priWf_setPriWord {s : State} (h : PriWf s) (w : Nat) (v : Word) :
    PriWf { s with pri := setPriWord s.pri w (v &&& 0xF0F0F0F0#32) } := by
  refine ⟨by rw [length_setPriWord]; exact h.1, fun b hb => ?_⟩
  have hm : ∀ x : Byte, x &&& 0xF0#8 &&& 0x0F#8 = 0#8 := by decide
  have key : ∀ (l : List Byte) (k : Nat) (x y : Byte), y ∈ l.set k x → y ∈ l ∨ y = x := fun l k x y hy =>
    List.mem_or_eq_of_mem_set hy
  simp only [setPriWord] at hb
  rcases key _ _ _ _ hb with hb | rfl
  · rcases key _ _ _ _ hb with hb | rfl
    · rcases key _ _ _ _ hb with hb | rfl
      · rcases key _ _ _ _ hb with hb | rfl
        · exact h.2 _ hb
        · rw [laneOf_masked, hm]
      · rw [laneOf_masked, hm]
    · rw [laneOf_masked, hm]
  · rw [laneOf_masked, hm]

/-- In a well-formed file, every byte has its low nibble zero. -/
theorem priByte_low {s : State} (h : PriWf s) (k : Nat) : s.priByte k &&& 0x0F#8 = 0#8 := by
  simp only [State.priByte, List.getD_eq_getElem?_getD]
  rcases hk : s.pri[k]? with _ | b
  · rfl
  · exact h.2 b (List.mem_of_getElem? hk)

/-- A byte whose low nibble is zero is its own top nibble. -/
theorem and_f0_of_low {b : Byte} (h : b &&& 0x0F#8 = 0#8) : b &&& 0xF0#8 = b := by
  revert b; decide

/-! ### Words and bytes after a write -/

/-- Two words with the same lanes are the same. -/
theorem word_ext {v v' : Word} (h : ∀ l, laneOf v l = laneOf v' l) : v = v' := by
  apply BitVec.eq_of_getLsbD_eq
  intro i hi
  have := congrArg (fun v => v.getLsbD (i % 8)) (h ⟨i / 8, by omega⟩)
  simpa only [getLsbD_laneOf, show 8 * (i / 8) + i % 8 = i by omega, show i % 8 < 8 by omega, decide_true, Bool.true_and] using this

/-- Two priority words with the same bytes are the same. -/
theorem priWord_ext {s t : State} {w w' : Nat} (h : ∀ l : Fin 4, s.priByte (4 * w + l.val) = t.priByte (4 * w' + l.val)) :
    s.priWord w = t.priWord w' := by
  simp only [State.priWord]
  have h0 := h 0; have h1 := h 1; have h2 := h 2; have h3 := h 3
  simp only [Fin.val_zero, Nat.add_zero] at h0
  rw [h0]; rw [show 4 * w + 1 = 4 * w + (1 : Fin 4).val from rfl, h1, show 4 * w + 2 = 4 * w + (2 : Fin 4).val from rfl, h2, show 4 * w + 3 = 4 * w + (3 : Fin 4).val from rfl, h3]
  rfl

/-- The low nibbles of a priority word are zero (10_state.md R32). -/
theorem priWord_low {s : State} (h : PriWf s) (w : Nat) : s.priWord w &&& 0x0F0F0F0F#32 = 0#32 := by
  have hb := fun l : Fin 4 => priByte_low h (4 * w + l.val)
  apply BitVec.eq_of_getLsbD_eq
  intro i hi
  have key : ∀ l : Fin 4, laneOf (s.priWord w &&& 0x0F0F0F0F#32) l = 0#8 := by
    intro l
    have h0 : laneOf (0x0F0F0F0F#32) l = 0x0F#8 := by revert l; decide
    rw [show laneOf (s.priWord w &&& 0x0F0F0F0F#32) l = laneOf (s.priWord w) l &&& laneOf (0x0F0F0F0F#32) l from ?_, h0, laneOf_priWord, hb]
    apply BitVec.eq_of_getLsbD_eq
    intro j hj
    simp only [getLsbD_laneOf, BitVec.getLsbD_and, hj, decide_true, Bool.true_and]
  have := congrArg (fun v => v.getLsbD (i % 8)) (key ⟨i / 8, by omega⟩)
  simp only [getLsbD_laneOf, BitVec.getLsbD_zero, show 8 * (i / 8) + i % 8 = i by omega, show i % 8 < 8 by omega, decide_true, Bool.true_and] at this
  simpa using this

/-- A byte of the file after its word `w` is written. -/
theorem priByte_set {s : State} (hp : PriWf s) {w : Nat} (hw : w < priWords s.cfg) (v : Word) (k : Nat) :
    State.priByte { s with pri := setPriWord s.pri w v } k = if h : 4 * w ≤ k ∧ k < 4 * w + 4 then laneOf v ⟨k - 4 * w, by omega⟩ else s.priByte k :=
  getD_setPriWord s.pri (by have := hp.1; omega) v k

/-- A byte of the word written. -/
theorem priByte_set_lane {s : State} (hp : PriWf s) {w : Nat} (hw : w < priWords s.cfg) (v : Word) (l : Fin 4) :
    State.priByte { s with pri := setPriWord s.pri w v } (4 * w + l.val) = laneOf v l := by
  rw [priByte_set hp hw, dif_pos (by omega)]
  congr 1; apply Fin.ext; simp

/-- A byte of another word. -/
theorem priByte_set_other {s : State} (hp : PriWf s) {w : Nat} (hw : w < priWords s.cfg) (v : Word) {k : Nat} (hk : k / 4 ≠ w) :
    State.priByte { s with pri := setPriWord s.pri w v } k = s.priByte k := by
  rw [priByte_set hp hw, dif_neg (by omega)]

/-- The word written. -/
theorem priWord_set {s : State} (hp : PriWf s) {w : Nat} (hw : w < priWords s.cfg) (v : Word) :
    State.priWord { s with pri := setPriWord s.pri w v } w = v :=
  word_ext fun l => by rw [laneOf_priWord, priByte_set_lane hp hw]

/-- Another word. -/
theorem priWord_set_other {s : State} (hp : PriWf s) {w : Nat} (hw : w < priWords s.cfg) (v : Word) {w' : Nat} (h : w' ≠ w) :
    State.priWord { s with pri := setPriWord s.pri w v } w' = s.priWord w' :=
  priWord_ext fun l => priByte_set_other hp hw v (by omega)

/-- Two 96-bit vectors with the same words are the same. -/
theorem lines_ext {v v' : Lines} (h : ∀ b, b < 3 → lineWord v b = lineWord v' b) : v = v' := by
  apply BitVec.eq_of_getLsbD_eq
  intro i hi
  have := congrArg (fun v => v.getLsbD (i % 32)) (h (i / 32) (by omega))
  simpa only [getLsbD_lineWord, show 32 * (i / 32) + i % 32 = i by omega, show i % 32 < 32 by omega, decide_true, Bool.true_and] using this

/-- A word written back changes nothing. -/
theorem setLineWord_self (v : Lines) {b : Nat} (hb : b < 3) : setLineWord v b (lineWord v b) = v :=
  lines_ext fun b' hb' => by
    rw [lineWord_setLineWord _ hb hb']; split <;> simp_all

/-- The last write of a word is the one that stays. -/
theorem setPriWord_setPriWord (pri : List Byte) (w : Nat) (v v' : Word) : setPriWord (setPriWord pri w v) w v' = setPriWord pri w v' := by
  simp only [setPriWord]
  apply List.ext_getElem?
  intro i
  simp only [List.getElem?_set, List.length_set]
  split_ifs <;> rfl

/-! ### Reads and writes at the addresses the operations use -/

section
variable {s : State} (h : s.cfg.legal = true)
include h

theorem csrRead_addrOf {c : Csr} (hc : inMap s.cfg c = true) (d : Word) :
    csrRead s (addrOf s.cfg c) d = some (readReg s d c) := by
  simp only [csrRead, csrAt_addrOf h hc, Option.map_some]

theorem csrWrite_addrOf {c : Csr} (hc : inMap s.cfg c = true) (v : Word) :
    csrWrite s (addrOf s.cfg c) v = some (writeReg s v c) := by
  simp only [csrWrite, csrAt_addrOf h hc, Option.map_some]

theorem csrWrite_iser {id : Word} (hid : id.toNat < 96) :
    csrWrite s (iserAddr s.cfg (bank id)) (bitmask id) = some { s with en := s.en ||| BitVec.twoPow 96 id.toNat } := by
  have := csrWrite_addrOf h (c := .iser (bank id)) (by simp [inMap, bankWords, bank_lt hid]) (bitmask id)
  simp only [writeReg, set_own_bit _ hid] at this
  exact this

theorem csrWrite_icer {id : Word} (hid : id.toNat < 96) :
    csrWrite s (icerAddr s.cfg (bank id)) (bitmask id) = some { s with en := s.en &&& ~~~(BitVec.twoPow 96 id.toNat) } := by
  have := csrWrite_addrOf h (c := .icer (bank id)) (by simp [inMap, bankWords, bank_lt hid]) (bitmask id)
  simp only [writeReg, clear_own_bit _ hid] at this
  exact this

theorem csrWrite_ispr {id : Word} (hid : id.toNat < 96) :
    csrWrite s (isprAddr s.cfg (bank id)) (bitmask id) = some { s with pend := s.pend ||| BitVec.twoPow 96 id.toNat } := by
  have := csrWrite_addrOf h (c := .ispr (bank id)) (by simp [inMap, bankWords, bank_lt hid]) (bitmask id)
  simp only [writeReg, set_own_bit _ hid] at this
  exact this

theorem csrWrite_icpr {id : Word} (hid : id.toNat < 96) :
    csrWrite s (icprAddr s.cfg (bank id)) (bitmask id) =
      some { s with pend := s.pend &&& ~~~(BitVec.twoPow 96 id.toNat) } := by
  have := csrWrite_addrOf h (c := .icpr (bank id)) (by simp [inMap, bankWords, bank_lt hid]) (bitmask id)
  simp only [writeReg, clear_own_bit _ hid] at this
  exact this

theorem csrRead_ispr {id : Word} (hid : id.toNat < 96) (d : Word) :
    csrRead s (isprAddr s.cfg (bank id)) d = some (lineWord s.pend (bank id)) :=
  csrRead_addrOf h (c := .ispr (bank id)) (by simp [inMap, bankWords, bank_lt hid]) d

theorem csrRead_ipr {w : Nat} (hw : w < priWords s.cfg) (d : Word) : csrRead s (iprAddr s.cfg w) d = some (s.priWord w) :=
  csrRead_addrOf h (c := .ipr w) (by simp [inMap, hw]) d

theorem csrWrite_ipr {w : Nat} (hw : w < priWords s.cfg) (v : Word) :
    csrWrite s (iprAddr s.cfg w) v = some { s with pri := setPriWord s.pri w (v &&& 0xF0F0F0F0#32) } :=
  csrWrite_addrOf h (c := .ipr w) (by simp [inMap, hw]) v

theorem csrWrite_scr (v : Word) : csrWrite s (scrAddrOf s.cfg) v = some { s with scr := v } :=
  csrWrite_addrOf h (c := .scr) rfl v

end

end Sys2Proof.Laws
end

