-- ==== Sys2Proof/Laws/Decode.lean ====
section
/-! SUPPORT. Lemmas about decoding and encoding (30_encoding.md). -/

namespace Sys2Proof.Laws

open Sys2Proof Sys2Proof.Machine

/-! ### The fields of an encoded control word -/

theorem ctrlWord_rsv (ov : Bool) (op : BitVec 3) : (ctrlWord ov op).extractLsb' 4 28 = 0#28 := by
  revert ov op; decide

theorem ctrlWord_bit0 (ov : Bool) (op : BitVec 3) : (ctrlWord ov op).getLsbD 0 = op.getLsbD 0 := by
  revert ov op; decide

theorem ctrlWord_bit1 (ov : Bool) (op : BitVec 3) : (ctrlWord ov op).getLsbD 1 = op.getLsbD 1 := by
  revert ov op; decide

theorem ctrlWord_bit2 (ov : Bool) (op : BitVec 3) : (ctrlWord ov op).getLsbD 2 = op.getLsbD 2 := by
  revert ov op; decide

theorem ctrlWord_bit3 (ov : Bool) (op : BitVec 3) : (ctrlWord ov op).getLsbD 3 = ov := by
  revert ov op; decide

theorem ctrlWord_op (ov : Bool) (op : BitVec 3) : (ctrlWord ov op).extractLsb' 0 3 = op := by
  revert ov op; decide

/-! ### The fields of a request -/

/-- `ctrlOK`, bit by bit: no bit above bit 3 is set (30_encoding.md R66, R72). -/
theorem ctrlOK_iff (q : Request) : q.ctrlOK = true ↔ ∀ i, 4 ≤ i → q.ctrl.getLsbD i = false := by
  simp only [Request.ctrlOK, Request.rsv, beq_iff_eq]
  constructor
  · intro h i hi
    have := congrArg (fun v => v.getLsbD (i - 4)) h
    simp only [BitVec.getLsbD_extractLsb', BitVec.getLsbD_zero, Bool.and_eq_false_imp, decide_eq_true_eq] at this
    by_cases h2 : i < 32
    · have := this (by omega)
      rwa [show 4 + (i - 4) = i by omega] at this
    · exact BitVec.getLsbD_of_ge _ _ (by omega)
  · intro h
    apply BitVec.eq_of_getLsbD_eq
    intro i hi
    simp [h (4 + i) (by omega)]

/-- A control word with its reserved bits zero is made of its `OV` and `OP`. -/
theorem ctrl_eq_ctrlWord {q : Request} (h : q.ctrlOK = true) :
    q.ctrl = ctrlWord (q.ctrl.getLsbD 3) (q.ctrl.extractLsb' 0 3) := by
  have h' := (ctrlOK_iff q).1 h
  apply BitVec.eq_of_getLsbD_eq
  intro i hi
  simp only [ctrlWord, BitVec.getLsbD_append, BitVec.getLsbD_extractLsb', BitVec.getLsbD_zero]
  by_cases h3 : i < 3
  · simp [h3]
  · by_cases h4 : i = 3
    · subst h4; simp
    · rw [h' i (by omega)]
      have : ¬ (i - 3 < 1) := by omega
      simp [h3, this]

/-- `OP` from its three bits. -/
theorem op_bits (c : Word) (a b d : Bool) (h2 : c.getLsbD 2 = a) (h1 : c.getLsbD 1 = b) (h0 : c.getLsbD 0 = d) :
    c.extractLsb' 0 3 = BitVec.ofBool a ++ BitVec.ofBool b ++ BitVec.ofBool d := by
  subst h2 h1 h0
  apply BitVec.eq_of_getLsbD_eq
  intro i hi
  obtain rfl | rfl | rfl : i = 0 ∨ i = 1 ∨ i = 2 := by omega
  all_goals simp only [BitVec.getLsbD_extractLsb', BitVec.getLsbD_append, BitVec.getLsbD_ofBool]; simp

/-- The operation that a request names has the request's `OP` (30_encoding.md R67). -/
theorem opcode_operation (q : Request) : q.operation.opcode = q.ctrl.extractLsb' 0 3 := by
  cases h2 : q.ctrl.getLsbD 2 <;> cases h1 : q.ctrl.getLsbD 1 <;> cases h0 : q.ctrl.getLsbD 0 <;>
    rw [op_bits q.ctrl _ _ _ h2 h1 h0] <;> simp only [Request.operation, h2, h1, h0, Instr.opcode] <;> rfl

/-- What decodes has its reserved bits zero, and is the operation that `OP` names. -/
theorem decode_ok {q : Request} {i : Instr} (h : decode q = .ok i) : q.ctrlOK = true ∧ i = q.operation := by
  simp only [decode] at h
  split at h
  · next hc => cases h; exact ⟨hc, rfl⟩
  · cases h

/-- The opcode table's mask keeps `OP` of a control word. -/
theorem ctrlWord_opMask (ov : Bool) (op : BitVec 3) : ctrlWord ov op &&& 0xFFFFFFF7#32 = op.setWidth 32 := by
  revert ov op; decide
theorem ctrlWord_allOnes (ov : Bool) (op : BitVec 3) : ctrlWord ov op &&& 0xFFFFFFFF#32 = ctrlWord ov op := by
  revert ov op; decide
theorem ctrlWord_rsvMask (ov : Bool) (op : BitVec 3) : ctrlWord ov op &&& 0xFFFFFFF0#32 = 0#32 := by
  revert ov op; decide
theorem ctrlWord_noOV (op : BitVec 3) : ctrlWord false op = op.setWidth 32 := by revert op; decide

/-- The bits of the mask of the reserved field. -/
theorem getLsbD_rsvMask (i : Nat) : (0xFFFFFFF0#32).getLsbD i = (decide (4 ≤ i) && decide (i < 32)) := by
  by_cases h : i < 32
  · have : ∀ j : Fin 32, (0xFFFFFFF0#32).getLsbD j.val = (decide (4 ≤ j.val) && decide (j.val < 32)) := by decide
    exact this ⟨i, h⟩
  · simp [h, BitVec.getLsbD_of_ge _ i (Nat.le_of_not_lt h)]

/-- The reserved field is zero exactly when the mask `0xFFFFFFF0` keeps nothing (30_encoding.md R73). -/
theorem rsvMask_iff (q : Request) : q.ctrl &&& 0xFFFFFFF0#32 = 0#32 ↔ q.ctrlOK = true := by
  rw [ctrlOK_iff]
  constructor
  · intro h i hi
    have := congrArg (fun v => v.getLsbD i) h
    by_cases h2 : i < 32
    · simp only [BitVec.getLsbD_and, getLsbD_rsvMask, hi, h2, decide_true, Bool.and_true, BitVec.getLsbD_zero] at this
      exact this
    · exact BitVec.getLsbD_of_ge _ _ (by omega)
  · intro h
    apply BitVec.eq_of_getLsbD_eq
    intro i hi
    by_cases h4 : 4 ≤ i
    · simp [h i h4]
    · simp [getLsbD_rsvMask, h4]

end Sys2Proof.Laws
end

