-- ==== Sys2Proof/Laws/Exec.lean ====
section
/-! SUPPORT. For each shared operation, what it can do; for `exec` and `step`, everything they can do, said once. -/

namespace Sys2Proof.Laws

open Sys2Proof Sys2Proof.Machine

/-! ### The checks -/

@[simp] theorem idBankOK_iff (id : Word) : idBankOK id = true ↔ id.toNat < 96 := by simp [idBankOK]

@[simp] theorem idPrioOK_iff (cfg : Config) (id : Word) : idPrioOK cfg id = true ↔ id.toNat < cfg.numIrq := by
  simp [idPrioOK]

@[simp] theorem rawOK_iff (a : Word) : rawOK a = true ↔ a.toNat ≤ 255 := by simp [rawOK]

@[simp] theorem gsOK_iff (m : Mode) (g s : Word) : gsOK m g s = true ↔ g.toNat ≤ maxGroup m ∧ s.toNat ≤ maxSub m := by
  simp [gsOK]

@[simp] theorem outOK_iff (ov : Bool) : outOK ov = true ↔ ov = true := Iff.rfl

/-- When a request is valid, operation by operation (40_dispatcher.md R80). -/
theorem firstFailure_none (cfg : Config) (i : Instr) : firstFailure cfg i = none ↔ match i with
    | .enableIRQ id | .disableIRQ id | .setPendingIRQ id | .clearPendingIRQ id => id.toNat < 96
    | .getPendingIRQ id ov => id.toNat < 96 ∧ ov = true
    | .setPriorityRaw id p => id.toNat < cfg.numIrq ∧ p.toNat ≤ 255
    | .setPriorityGrouped id g s => (g.toNat ≤ maxGroup cfg.mode ∧ s.toNat ≤ maxSub cfg.mode) ∧ id.toNat < cfg.numIrq
    | .getPriority id ov => id.toNat < cfg.numIrq ∧ ov = true := by
  cases i <;> simp only [firstFailure] <;> split_ifs <;> simp_all

theorem valid_iff (cfg : Config) (i : Instr) : valid cfg i = true ↔ firstFailure cfg i = none := by
  simp [valid]

/-! ### Requesters after a response -/

theorem setInflight_requester_cur (s : State) (p : PrioSet) :
    (setInflight (some p) s).requester s.cur = { s.me with inflight := some p } :=
  setRequester_requester_same s _ (by intro h; simpa [Requester.idle] using congrArg Requester.inflight h)

theorem setInflight_requester_other (s : State) (x : Option PrioSet) {r : Nat} (h : r ≠ s.cur) :
    (setInflight x s).requester r = s.requester r :=
  setRequester_requester_other s h _

theorem respondOk_requester_cur (s : State) :
    (respondOk s).requester s.cur = s.me.receive ⟨true, false, Config.freeRData s.draws⟩ s.me.inflight :=
  deliver_requester_cur _ _ s

theorem respondOk_requester_other (s : State) {r : Nat} (h : r ≠ s.cur) : (respondOk s).requester r = s.requester r :=
  deliver_requester_other _ _ s h

theorem respondOkClearing_requester_cur (s : State) :
    (respondOkClearing s).requester s.cur = s.me.receive ⟨true, false, Config.freeRData s.draws⟩ none :=
  deliver_requester_cur _ _ s

theorem respondOkClearing_requester_other (s : State) {r : Nat} (h : r ≠ s.cur) :
    (respondOkClearing s).requester r = s.requester r :=
  deliver_requester_other _ _ s h

theorem respondData_requester_cur (s : State) (v : Word) :
    (respondData v s).requester s.cur = s.me.receive ⟨true, true, v⟩ s.me.inflight :=
  deliver_requester_cur _ _ s

theorem respondData_requester_other (s : State) (v : Word) {r : Nat} (h : r ≠ s.cur) :
    (respondData v s).requester r = s.requester r :=
  deliver_requester_other _ _ s h

theorem failWith_requester_cur (s : State) (k : ErrKind) :
    (failWith k s).requester s.cur = s.me.receive ⟨false, false, Config.freeRData s.draws⟩ s.me.inflight :=
  deliver_requester_cur _ _ s

theorem failWith_requester_other (s : State) (k : ErrKind) {r : Nat} (h : r ≠ s.cur) :
    (failWith k s).requester r = s.requester r :=
  deliver_requester_other _ _ s h

theorem answeredOk_respondOk (s : State) : AnsweredOk s (respondOk s) s.me.inflight :=
  ⟨⟨_, by rw [respondOk_requester_cur]; rfl⟩, fun _ hr => respondOk_requester_other s hr⟩

theorem answeredOk_respondOkClearing (s : State) : AnsweredOk s (respondOkClearing s) none :=
  ⟨⟨_, by rw [respondOkClearing_requester_cur]; rfl⟩, fun _ hr => respondOkClearing_requester_other s hr⟩

theorem answeredData_respondData (s : State) (v : Word) : AnsweredData s (respondData v s) v :=
  ⟨by rw [respondData_requester_cur]; rfl, fun _ hr => respondData_requester_other s v hr⟩

theorem answeredNotOk_failWith (s : State) (k : ErrKind) : AnsweredNotOk s (failWith k s) :=
  ⟨⟨_, by rw [failWith_requester_cur]; rfl⟩, fun _ hr => failWith_requester_other s k hr⟩

/-- `FAIL(kind)` answers not-ok and changes no register. -/
theorem failed_failWith (s : State) (k : ErrKind) : Failed s (failWith k s) k :=
  ⟨⟨rfl, rfl, rfl, rfl⟩, ⟨rfl, rfl, rfl⟩, answeredNotOk_failWith s k, rfl⟩

/-! ### The accesses of a phase -/

theorem loadCsr_of_read {s : State} {a : Nat} {v : Word} (h : ∀ d, csrRead s a d = some v) (k : Word → Result) :
    loadCsr a s k = k v := by
  simp only [loadCsr, h]

theorem storeCsr_of_write {s s' : State} {a : Nat} {v : Word} (h : csrWrite s a v = some s') (k : State → Result) :
    storeCsr a v s k = k s' := by
  simp only [storeCsr, h]

/-! ### The phases of a priority write (42_priority_ops.md R126) -/

section
variable {s : State} (h : s.cfg.legal = true)
include h

theorem prioP1_eq {w : Nat} (hw : w < priWords s.cfg) (l : Fin 4) (byte : Byte) (enc : Word) :
    prioP1 w l byte enc s =
      .next (setInflight (some ⟨w, l, byte, enc, .p2, s.priWord w⟩) s) :=
  loadCsr_of_read (csrRead_ipr h hw) _

theorem prioP2_eq {p : PrioSet} (hw : p.w < priWords s.cfg) :
    prioP2 p s = .next (setInflight (some { p with next := .p3 })
      { s with pri := setPriWord s.pri p.w (mergeLane p.c p.lane p.byte &&& 0xF0F0F0F0#32) }) :=
  storeCsr_of_write (csrWrite_ipr h hw _) _

theorem prioP3_eq (p : PrioSet) : prioP3 p s = .next (respondOkClearing { s with scr := p.enc }) :=
  storeCsr_of_write (csrWrite_scr h _) _

/-! ### The meanings, where the request is valid -/

theorem exec_enableIRQ {id : Word} (hid : id.toNat < 96) :
    exec (.enableIRQ id) s = .next (respondOk { s with en := s.en ||| BitVec.twoPow 96 id.toNat }) := by
  simp only [exec, execEnableIRQ, bankWrite, idBankOK, hid, decide_true, if_true]
  exact storeCsr_of_write (csrWrite_iser h hid) _

theorem exec_disableIRQ {id : Word} (hid : id.toNat < 96) :
    exec (.disableIRQ id) s = .next (respondOk { s with en := s.en &&& ~~~(BitVec.twoPow 96 id.toNat) }) := by
  simp only [exec, execDisableIRQ, bankWrite, idBankOK, hid, decide_true, if_true]
  exact storeCsr_of_write (csrWrite_icer h hid) _

theorem exec_setPendingIRQ {id : Word} (hid : id.toNat < 96) :
    exec (.setPendingIRQ id) s = .next (respondOk { s with pend := s.pend ||| BitVec.twoPow 96 id.toNat }) := by
  simp only [exec, execSetPendingIRQ, bankWrite, idBankOK, hid, decide_true, if_true]
  exact storeCsr_of_write (csrWrite_ispr h hid) _

theorem exec_clearPendingIRQ {id : Word} (hid : id.toNat < 96) :
    exec (.clearPendingIRQ id) s = .next (respondOk { s with pend := s.pend &&& ~~~(BitVec.twoPow 96 id.toNat) }) := by
  simp only [exec, execClearPendingIRQ, bankWrite, idBankOK, hid, decide_true, if_true]
  exact storeCsr_of_write (csrWrite_icpr h hid) _

theorem exec_getPendingIRQ {id : Word} (hid : id.toNat < 96) :
    exec (.getPendingIRQ id true) s =
      .next (respondData ((BitVec.ofBool (s.pend.getLsbD id.toNat)).setWidth 32) s) := by
  simp only [exec, execGetPendingIRQ, idBankOK, outOK, hid, decide_true, if_true]
  rw [loadCsr_of_read (csrRead_ispr h hid), lineWord_own_bit]

theorem exec_getPriority {id : Word} (hid : id.toNat < s.cfg.numIrq) :
    exec (.getPriority id true) s =
      .next (respondData (fromField (s.priByte (slot s.cfg.prioIndexMode id))) s) := by
  simp only [exec, execGetPriority, idPrioOK, outOK, hid, decide_true, if_true]
  rw [loadCsr_of_read (csrRead_ipr h (pword_lt_priWords hid)), laneOf_priWord]
  rfl

end

/-! ### The meanings, where a check fails -/

/-- A request whose first failing check has the kind `k` is `FAIL(k)`; a priority set is so only at its first phase. -/
theorem exec_of_firstFailure {s : State} {i : Instr} {k : ErrKind} (hk : firstFailure s.cfg i = some k)
    (hn : s.me.inflight = none ∨ isPrioSet i = false) : exec i s = .next (failWith k s) := by
  cases i <;> simp only [isPrioSet, or_false, or_true, Bool.true_eq_false] at hn <;> simp only [firstFailure] at hk <;>
    simp only [exec, execEnableIRQ, execDisableIRQ, execSetPendingIRQ, execClearPendingIRQ, execGetPendingIRQ,
      execGetPriority, execSetPriorityRaw, execSetPriorityGrouped, bankWrite]
  all_goals
    repeat' split at hk
    all_goals first
      | (cases hk; done)
      | (cases hk; simp_all)

/-! ### What a valid priority set asks for -/

theorem prioArgs_some {cfg : Config} {i : Instr} {id : Word} {byte : Byte} {enc : Word}
    (h : prioArgs cfg i = some (id, byte, enc)) :
    id.toNat < cfg.numIrq ∧ valid cfg i = true ∧ byte &&& 0x0F#8 = 0#8 := by
  have hf : ∀ v : Byte, toField v &&& 0x0F#8 = 0#8 := by decide
  cases i <;> simp only [prioArgs, reduceCtorEq] at h
  all_goals
    split at h
    · next hv =>
      cases h
      refine ⟨?_, hv, hf _⟩
      simp only [valid, firstFailure, idPrioOK] at hv
      split_ifs at hv <;> simp_all
    · cases h

/-- The first phase of a valid priority set. -/
theorem exec_of_prioArgs {s : State} (h : s.cfg.legal = true) {i : Instr} {id : Word} {byte : Byte} {enc : Word}
    (hi : prioArgs s.cfg i = some (id, byte, enc)) (hn : s.me.inflight = none) :
    exec i s = .next (setInflight
      (some ⟨pword id, plane s.cfg.prioIndexMode id, byte, enc, .p2, s.priWord (pword id)⟩) s) := by
  have hid := (prioArgs_some hi).1
  cases i <;> simp only [prioArgs, reduceCtorEq] at hi
  all_goals
    split at hi
    · next hv =>
      cases hi
      simp only [valid, firstFailure] at hv
      simp only [exec, execSetPriorityRaw, execSetPriorityGrouped, hn]
      split_ifs at hv ⊢ <;> simp_all only [Option.isNone_none, Option.isNone_some, Bool.false_eq_true]
      exact prioP1_eq h (pword_lt_priWords hid) _ _ _
    · cases hi

/-- A later phase of a priority set. -/
theorem exec_of_inflight {s : State} {i : Instr} {p : PrioSet} (hi : isPrioSet i = true) (hp : s.me.inflight = some p) :
    exec i s = prioContinue p s := by
  cases i <;> simp only [isPrioSet, Bool.false_eq_true] at hi <;>
    simp only [exec, execSetPriorityRaw, execSetPriorityGrouped, hp]

/-- A priority set is a valid one, or its first failing check has a kind. -/
theorem prioArgs_or_failure (cfg : Config) {i : Instr} (hi : isPrioSet i = true) :
    (∃ x, prioArgs cfg i = some x) ∨ ∃ k, firstFailure cfg i = some k := by
  cases hf : firstFailure cfg i with
  | some k => exact .inr ⟨k, rfl⟩
  | none =>
    left
    cases i <;> simp only [isPrioSet, Bool.false_eq_true] at hi <;>
      simp [prioArgs, valid, hf]

/-! ### Everything a phase can do -/

/-- What one phase of a request can do to the state (20_memory.md R59). -/
inductive PhaseStep (s : State) (i : Instr) : State → Prop where
  /-- a failing request -/
  | fail (k : ErrKind) (hk : firstFailure s.cfg i = some k) (hn : s.me.inflight = none ∨ isPrioSet i = false) :
       PhaseStep s i (failWith k s)
  /-- `EnableIRQ` -/
  | enable (id : Word) (hi : i = .enableIRQ id) (hid : id.toNat < 96) :
      PhaseStep s i (respondOk { s with en := s.en ||| BitVec.twoPow 96 id.toNat })
  /-- `DisableIRQ` -/
  | disable (id : Word) (hi : i = .disableIRQ id) (hid : id.toNat < 96) :
      PhaseStep s i (respondOk { s with en := s.en &&& ~~~(BitVec.twoPow 96 id.toNat) })
  /-- `SetPendingIRQ` -/
  | setPend (id : Word) (hi : i = .setPendingIRQ id) (hid : id.toNat < 96) :
      PhaseStep s i (respondOk { s with pend := s.pend ||| BitVec.twoPow 96 id.toNat })
  /-- `ClearPendingIRQ` -/
  | clearPend (id : Word) (hi : i = .clearPendingIRQ id) (hid : id.toNat < 96) :
      PhaseStep s i (respondOk { s with pend := s.pend &&& ~~~(BitVec.twoPow 96 id.toNat) })
  /-- `GetPendingIRQ` -/
  | getPend (id : Word) (hi : i = .getPendingIRQ id true) (hid : id.toNat < 96) :
      PhaseStep s i (respondData ((BitVec.ofBool (s.pend.getLsbD id.toNat)).setWidth 32) s)
  /-- `GetPriority` -/
  | getPrio (id : Word) (hi : i = .getPriority id true) (hid : id.toNat < s.cfg.numIrq) :
      PhaseStep s i (respondData (fromField (s.priByte (slot s.cfg.prioIndexMode id))) s)
  /-- phase `P1` -/
  | p1 (id : Word) (byte : Byte) (enc : Word) (hi : isPrioSet i = true) (hn : s.me.inflight = none)
      (ha : prioArgs s.cfg i = some (id, byte, enc)) :
      PhaseStep s i (setInflight
        (some ⟨pword id, plane s.cfg.prioIndexMode id, byte, enc, .p2, s.priWord (pword id)⟩) s)
  /-- phase `P2` -/
  | p2 (p : PrioSet) (hi : isPrioSet i = true) (hp : s.me.inflight = some p) (hn : p.next = .p2)
      (hw : p.w < priWords s.cfg) :
      PhaseStep s i (setInflight (some { p with next := .p3 })
        { s with pri := setPriWord s.pri p.w (mergeLane p.c p.lane p.byte &&& 0xF0F0F0F0#32) })
  /-- phase `P3` -/
  | p3 (p : PrioSet) (hi : isPrioSet i = true) (hp : s.me.inflight = some p) (hn : p.next = .p3) :
      PhaseStep s i (respondOkClearing { s with scr := p.enc })

/-- Under a legal configuration, and with an in-flight record that names a word of the priority file, `exec` answers a next
state, and it is one of `PhaseStep`'s. -/
theorem exec_step {s : State} (h : s.cfg.legal = true) (hw : ∀ p, s.me.inflight = some p → p.w < priWords s.cfg)
    (i : Instr) : ∃ t, exec i s = .next t ∧ PhaseStep s i t := by
  by_cases hi : isPrioSet i = true
  · cases hp : s.me.inflight with
    | none =>
      rcases prioArgs_or_failure s.cfg hi with ⟨⟨id, byte, enc⟩, ha⟩ | ⟨k, hk⟩
      · exact ⟨_, exec_of_prioArgs h ha hp, .p1 id byte enc hi hp ha⟩
      · exact ⟨_, exec_of_firstFailure hk (.inl hp), .fail k hk (.inl hp)⟩
    | some p =>
      rw [exec_of_inflight hi hp]
      cases hn : p.next with
      | p2 =>
        refine ⟨_, ?_, .p2 p hi hp hn (hw p hp)⟩
        simp only [prioContinue, hn, prioP2_eq h (hw p hp)]
      | p3 =>
        refine ⟨_, ?_, .p3 p hi hp hn⟩
        simp only [prioContinue, hn, prioP3_eq h]
  · have hi' : isPrioSet i = false := by simpa using hi
    cases hf : firstFailure s.cfg i with
    | some k => exact ⟨_, exec_of_firstFailure hf (.inr hi'), .fail k hf (.inr hi')⟩
    | none =>
      rw [firstFailure_none] at hf
      cases i <;> simp only [isPrioSet, not_true_eq_false] at hi <;> simp only at hf
      case enableIRQ id => exact ⟨_, exec_enableIRQ h hf, .enable id rfl hf⟩
      case disableIRQ id => exact ⟨_, exec_disableIRQ h hf, .disable id rfl hf⟩
      case setPendingIRQ id => exact ⟨_, exec_setPendingIRQ h hf, .setPend id rfl hf⟩
      case clearPendingIRQ id => exact ⟨_, exec_clearPendingIRQ h hf, .clearPend id rfl hf⟩
      case getPendingIRQ id ov =>
        obtain ⟨hid, rfl⟩ := hf
        exact ⟨_, exec_getPendingIRQ h hid, .getPend id rfl hid⟩
      case getPriority id ov =>
        obtain ⟨hid, rfl⟩ := hf
        exact ⟨_, exec_getPriority h hid, .getPrio id rfl hid⟩

/-- If `exec` answers a next state, it is one of `PhaseStep`'s. -/
theorem exec_next {s t : State} (h : s.cfg.legal = true) (hw : ∀ p, s.me.inflight = some p → p.w < priWords s.cfg)
    {i : Instr} (ht : exec i s = .next t) : PhaseStep s i t := by
  obtain ⟨t', ht', hs⟩ := exec_step h hw i
  rw [ht'] at ht; cases ht; exact hs

/-- Each case of `PhaseStep` is what `exec` answers. -/
theorem exec_of_phaseStep {s t : State} (h : s.cfg.legal = true) {i : Instr} (hp : PhaseStep s i t) :
    exec i s = .next t := by
  cases hp with
  | fail k hk hn => exact exec_of_firstFailure hk hn
  | enable id hi hid => subst hi; exact exec_enableIRQ h hid
  | disable id hi hid => subst hi; exact exec_disableIRQ h hid
  | setPend id hi hid => subst hi; exact exec_setPendingIRQ h hid
  | clearPend id hi hid => subst hi; exact exec_clearPendingIRQ h hid
  | getPend id hi hid => subst hi; exact exec_getPendingIRQ h hid
  | getPrio id hi hid => subst hi; exact exec_getPriority h hid
  | p1 id byte enc hi hn ha => exact exec_of_prioArgs h ha hn
  | p2 p hi hp hn hw => rw [exec_of_inflight hi hp, prioContinue, hn]; exact prioP2_eq h hw
  | p3 p hi hp hn => rw [exec_of_inflight hi hp, prioContinue, hn]; exact prioP3_eq h p

end Sys2Proof.Laws
end

