-- ==== Sys2Proof/Laws/Frame.lean ====
section
/-! SUPPORT. What each change of state leaves readable as before, one bit of a 96-line vector set or cleared, and the
operation that a masked control word selects. -/

namespace Sys2Proof.Laws

open Sys2Proof Sys2Proof.Machine

/-! ### Reads that a change leaves alone (20_memory.md R52) -/

/-- A change of the word `b` of `EN` shows only at the two views of that word. -/
theorem readsKept_en {s t : State} {b : Nat} (hcfg : t.cfg = s.cfg) (hp : t.pend = s.pend) (hr : t.pri = s.pri)
    (he : ∀ b', b' < 3 → b' ≠ b → lineWord t.en b' = lineWord s.en b') :
    ReadsKept s t [iserAddr s.cfg b, icerAddr s.cfg b] := by
  intro a d ha
  simp only [List.mem_cons, List.not_mem_nil, or_false, not_or] at ha
  simp only [csrRead, hcfg]
  cases hc : csrAt s.cfg a with
  | none => rfl
  | some c =>
    obtain ⟨h1, h2⟩ := addrOf_csrAt hc
    cases c <;> simp only [Option.map_some, readReg, State.priWord, State.priByte, hp, hr]
    case iser b' => rw [he b' (by simpa [inMap] using h2) (by rintro rfl; exact ha.1 h1.symm)]
    case icer b' => rw [he b' (by simpa [inMap] using h2) (by rintro rfl; exact ha.2 h1.symm)]

/-- A change of the word `b` of `PEND` shows only at the two views of that word. -/
theorem readsKept_pend {s t : State} {b : Nat} (hcfg : t.cfg = s.cfg) (he : t.en = s.en) (hr : t.pri = s.pri)
    (hp : ∀ b', b' < 3 → b' ≠ b → lineWord t.pend b' = lineWord s.pend b') :
    ReadsKept s t [isprAddr s.cfg b, icprAddr s.cfg b] := by
  intro a d ha
  simp only [List.mem_cons, List.not_mem_nil, or_false, not_or] at ha
  simp only [csrRead, hcfg]
  cases hc : csrAt s.cfg a with
  | none => rfl
  | some c =>
    obtain ⟨h1, h2⟩ := addrOf_csrAt hc
    cases c <;> simp only [Option.map_some, readReg, State.priWord, State.priByte, he, hr]
    case ispr b' => rw [hp b' (by simpa [inMap] using h2) (by rintro rfl; exact ha.1 h1.symm)]
    case icpr b' => rw [hp b' (by simpa [inMap] using h2) (by rintro rfl; exact ha.2 h1.symm)]

/-- A change of the priority word `w` shows only at its address. -/
theorem readsKept_pri {s t : State} {w : Nat} (hcfg : t.cfg = s.cfg) (he : t.en = s.en) (hp : t.pend = s.pend)
    (hr : ∀ w', w' ≠ w → t.priWord w' = s.priWord w') : ReadsKept s t [iprAddr s.cfg w] := by
  intro a d ha
  simp only [List.mem_cons, List.not_mem_nil, or_false] at ha
  simp only [csrRead, hcfg]
  cases hc : csrAt s.cfg a with
  | none => rfl
  | some c =>
    obtain ⟨h1, h2⟩ := addrOf_csrAt hc
    cases c <;> simp only [Option.map_some, readReg, hp, he]
    case ipr w' => rw [hr w' (by rintro rfl; exact ha h1.symm)]

/-- Where `EN`, `PEND` and `PRI` are as before, so is every read. -/
theorem readsKept_all {s t : State} (hcfg : t.cfg = s.cfg) (he : t.en = s.en) (hp : t.pend = s.pend) (hr : t.pri = s.pri) :
    ReadsKept s t [] := by
  intro a d _
  simp only [csrRead, hcfg]
  cases csrAt s.cfg a with
  | none => rfl
  | some c => cases c <;> simp only [Option.map_some, readReg, State.priWord, State.priByte, hp, he, hr]

/-! ### One bit set or cleared -/

theorem lineWord_set_other (v : Lines) {id : Word} (hid : id.toNat < 96) {b : Nat} (hb : b < 3) (hn : b ≠ bank id) :
    lineWord (v ||| BitVec.twoPow 96 id.toNat) b = lineWord v b := by
  rw [← set_own_bit v hid, lineWord_setLineWord _ (bank_lt hid) hb, if_neg hn]

theorem lineWord_clear_other (v : Lines) {id : Word} (hid : id.toNat < 96) {b : Nat} (hb : b < 3) (hn : b ≠ bank id) :
    lineWord (v &&& ~~~(BitVec.twoPow 96 id.toNat)) b = lineWord v b := by
  rw [← clear_own_bit v hid, lineWord_setLineWord _ (bank_lt hid) hb, if_neg hn]

theorem getLsbD_set (v : Lines) {n : Nat} (hn : n < 96) (i : Nat) :
    (v ||| BitVec.twoPow 96 n).getLsbD i = (decide (i = n) || v.getLsbD i) := by
  simp only [BitVec.getLsbD_or, BitVec.getLsbD_twoPow, hn, decide_true, Bool.true_and]
  rw [Bool.or_comm, show decide (n = i) = decide (i = n) from decide_eq_decide.2 eq_comm]

theorem getLsbD_clear (v : Lines) {n : Nat} (hn : n < 96) {i : Nat} (hi : i < 96) :
    (v &&& ~~~(BitVec.twoPow 96 n)).getLsbD i = (!decide (i = n) && v.getLsbD i) := by
  simp only [BitVec.getLsbD_and, BitVec.getLsbD_not, BitVec.getLsbD_twoPow, hn, hi, decide_true, Bool.true_and]
  rw [Bool.and_comm, show decide (n = i) = decide (i = n) from decide_eq_decide.2 eq_comm]

/-! ### The responses of the current requester -/

theorem respondOk_me_responses (s : State) :
    (respondOk s).me.responses = s.me.responses ++ [⟨true, false, Config.freeRData s.draws⟩] := by
  change ((respondOk s).requester s.cur).responses = _
  rw [respondOk_requester_cur]; rfl

theorem respondData_me_responses (s : State) (v : Word) :
    (respondData v s).me.responses = s.me.responses ++ [⟨true, true, v⟩] := by
  change ((respondData v s).requester s.cur).responses = _
  rw [respondData_requester_cur]; rfl

/-! ### What a masked control word selects (30_encoding.md R73) -/

/-- A request whose `CTRL`, without its `OV` bit, is an opcode has its reserved bits zero and that opcode. -/
theorem opcode_of_mask {q : Request} {n : BitVec 3} (h : q.ctrl &&& 0xFFFFFFF7#32 = n.setWidth 32) :
    q.ctrlOK = true ∧ q.ctrl.extractLsb' 0 3 = n := by
  have hc : q.ctrlOK = true := by
    rw [← rsvMask_iff]
    have : q.ctrl &&& 0xFFFFFFF0#32 = (q.ctrl &&& 0xFFFFFFF7#32) &&& 0xFFFFFFF0#32 := by
      rw [BitVec.and_assoc]; congr 1
    rw [this, h]; clear h this; revert n; decide
  refine ⟨hc, ?_⟩
  rw [ctrl_eq_ctrlWord hc, ctrlWord_opMask] at h
  have : ∀ a b : BitVec 3, a.setWidth 32 = b.setWidth 32 → a = b := by decide
  exact this _ _ h

/-- Such a request decodes to the operation that the opcode names (R67). -/
theorem decode_of_mask (q : Request) (n : BitVec 3) (h : q.ctrl &&& 0xFFFFFFF7#32 = n.setWidth 32) :
    decode q = .ok (match n.getLsbD 2, n.getLsbD 1, n.getLsbD 0 with
      | false, false, false => .enableIRQ q.id
      | false, false, true  => .disableIRQ q.id
      | false, true,  false => .setPendingIRQ q.id
      | false, true,  true  => .clearPendingIRQ q.id
      | true,  false, false => .getPendingIRQ q.id q.ov
      | true,  false, true  => .setPriorityRaw q.id q.a
      | true,  true,  false => .setPriorityGrouped q.id q.a q.b
      | true,  true,  true  => .getPriority q.id q.ov) := by
  obtain ⟨hc, rfl⟩ := opcode_of_mask h
  simp only [decode, hc, if_true, Request.operation, BitVec.getLsbD_extractLsb', Nat.zero_add, Nat.reduceLT, decide_true,
    Bool.true_and]
  all_goals cases q.ctrl.getLsbD 2 <;> cases q.ctrl.getLsbD 1 <;> cases q.ctrl.getLsbD 0 <;> rfl

/-! ### A whole priority write (42_priority_ops.md R126) -/

/-- The slot of a valid id is a byte that operations reach (10_state.md R33). -/
theorem slot_reachable {cfg : Config} {id : Word} (hid : id.toNat < cfg.numIrq) :
    reachableByte cfg (slot cfg.prioIndexMode id) = true := by
  have := pword_lt_priWords hid
  simp only [reachableByte, slot]
  cases cfg.prioIndexMode with
  | corrected => exact decide_eq_true (by simp only [plane, pword]; omega)
  | faithful =>
    rw [Bool.and_eq_true]
    exact ⟨decide_eq_true (by simp only [plane, Fin.val_zero]; omega),
      decide_eq_true (by simp only [plane, Fin.val_zero]; omega)⟩

/-- The file after a field byte is merged into the present word of an id: the id's slot holds it, nothing else changes. -/
theorem priByte_merged {s : State} (hp : PriWf s) {id : Word} {byte : Byte} (hw : pword id < priWords s.cfg)
    (hlow : byte &&& 0x0F#8 = 0#8) (m : PrioIndexMode) (k : Nat) :
    State.priByte
        { s with pri := setPriWord s.pri (pword id) (mergeLane (s.priWord (pword id)) (plane m id) byte &&& 0xF0F0F0F0#32) }
        k = if k = slot m id then byte else s.priByte k := by
  by_cases hk : k / 4 = pword id
  · rw [show k = 4 * pword id + (⟨k % 4, by omega⟩ : Fin 4).val by simp only; omega, priByte_set_lane hp hw,
      laneOf_masked, laneOf_mergeLane]
    by_cases hl : (⟨k % 4, by omega⟩ : Fin 4) = plane m id
    · rw [if_pos hl, hl, if_pos (by rfl)]
      exact and_f0_of_low hlow
    · rw [if_neg hl, if_neg, laneOf_priWord]
      · exact and_f0_of_low (priByte_low hp _)
      · intro he; apply hl; apply Fin.ext; simp only [slot] at he ⊢; omega
  · rw [priByte_set_other hp hw _ hk, if_neg]
    rintro rfl; apply hk; simp only [slot]; have := (plane m id).isLt; omega

end Sys2Proof.Laws
end

