-- ==== Sys2Proof/Laws/PerInstr.lean ====
section
/-! SUPPORT. The per-instruction family: the control word of each operation's encoding (30_encoding.md R66, R67). -/

namespace Sys2Proof.Laws

open Sys2Proof

/-- The encoding of `i` has its reserved bits zero and the operation's own opcode in `OP`. -/
def EncodesItsOpcode.Statement (i : Instr) : Prop :=
  (encode i).ctrlOK = true ∧ (encode i).ctrl.extractLsb' 0 3 = i.opcode

/-- A control word that `ctrlWord` makes has its reserved bits zero, and its opcode in `OP`. -/
theorem ctrlWord_shape {q : Request} {ov : Bool} {op : BitVec 3} (h : q.ctrl = ctrlWord ov op) :
    q.ctrlOK = true ∧ q.ctrl.extractLsb' 0 3 = op := by
  simp only [Request.ctrlOK, Request.rsv, h, ctrlWord_rsv, ctrlWord_op, beq_self_eq_true, and_self]

theorem EncodesItsOpcode.enableIRQ (id : Word) : EncodesItsOpcode.Statement (.enableIRQ id) := ctrlWord_shape rfl

theorem EncodesItsOpcode.disableIRQ (id : Word) : EncodesItsOpcode.Statement (.disableIRQ id) := ctrlWord_shape rfl

theorem EncodesItsOpcode.setPendingIRQ (id : Word) : EncodesItsOpcode.Statement (.setPendingIRQ id) := ctrlWord_shape rfl

theorem EncodesItsOpcode.clearPendingIRQ (id : Word) : EncodesItsOpcode.Statement (.clearPendingIRQ id) :=
  ctrlWord_shape rfl

theorem EncodesItsOpcode.getPendingIRQ (id : Word) (ov : Bool) : EncodesItsOpcode.Statement (.getPendingIRQ id ov) :=
  ctrlWord_shape rfl

theorem EncodesItsOpcode.setPriorityRaw (id p : Word) : EncodesItsOpcode.Statement (.setPriorityRaw id p) :=
  ctrlWord_shape rfl

theorem EncodesItsOpcode.setPriorityGrouped (id g s : Word) : EncodesItsOpcode.Statement (.setPriorityGrouped id g s) :=
  ctrlWord_shape rfl

theorem EncodesItsOpcode.getPriority (id : Word) (ov : Bool) : EncodesItsOpcode.Statement (.getPriority id ov) :=
  ctrlWord_shape rfl

end Sys2Proof.Laws
end

