-- ==== Sys2Proof/Laws/Step.lean ====
section
/-! SUPPORT. Everything one step of the machine can do, said once; and what the invariant says of the requesters. -/

namespace Sys2Proof.Laws

open Sys2Proof Sys2Proof.Machine

/-! ### What the invariant says of each requester -/

theorem inflightOK_lookup {s : State} (h : Inv s) (r : Nat) : inflightOK s.cfg (s.requester r) = true :=
  forall_lookup (P := fun q => inflightOK s.cfg q = true) rfl h.2.2.2.1 r

theorem copyOK_lookup {s : State} (h : Inv s) (r : Nat) : copyOK s (s.requester r) = true :=
  forall_lookup (P := fun q => copyOK s q = true) rfl h.2.2.2.2 r

/-- An in-flight record is that of the outstanding request, a valid priority set. -/
theorem inflight_request {cfg : Config} {q : Requester} (h : inflightOK cfg q = true) {p : PrioSet}
    (hp : q.inflight = some p) :
    ∃ req rest id byte enc, q.queue = req :: rest ∧ requestArgs cfg req = some (id, byte, enc) ∧ p.w = pword id ∧
      p.lane = plane cfg.prioIndexMode id ∧ p.byte = byte ∧ p.enc = enc := by
  simp only [inflightOK, hp] at h
  cases hq : q.queue with
  | nil => simp [hq] at h
  | cons req rest =>
    simp only [hq] at h
    cases ha : requestArgs cfg req with
    | none => simp [ha] at h
    | some x =>
      obtain ⟨id, byte, enc⟩ := x
      simp only [ha, Bool.and_eq_true, beq_iff_eq] at h
      exact ⟨req, rest, id, byte, enc, rfl, ha, h.1.1.1, h.1.1.2, h.1.2, h.2⟩

theorem requestArgs_some {cfg : Config} {q : Request} {x : Word × Byte × Word} (h : requestArgs cfg q = some x) :
    ∃ i, decode q = .ok i ∧ prioArgs cfg i = some x ∧ isPrioSet i = true := by
  simp only [requestArgs] at h
  cases hd : decode q with
  | error e => simp [hd] at h
  | ok i =>
    simp only [hd] at h
    refine ⟨i, rfl, h, ?_⟩
    cases i <;> simp [prioArgs] at h <;> rfl

/-- An in-flight record names a word of the priority file. -/
theorem inflight_word {cfg : Config} {q : Requester} (h : inflightOK cfg q = true) {p : PrioSet}
    (hp : q.inflight = some p) : p.w < priWords cfg := by
  obtain ⟨req, rest, id, byte, enc, -, ha, hw, -⟩ := inflight_request h hp
  obtain ⟨i, -, hi, -⟩ := requestArgs_some ha
  rw [hw]
  exact pword_lt_priWords (prioArgs_some hi).1

/-- Every in-flight record names a word of the priority file. -/
abbrev WordsInFile (s : State) : Prop :=
  ∀ r p, (s.requester r).inflight = some p → p.w < priWords s.cfg

theorem wordsInFile_of_inv {s : State} (h : Inv s) : WordsInFile s :=
  fun r _ hp => inflight_word (inflightOK_lookup h r) hp

/-- A requester whose outstanding request is no valid priority set has nothing in flight. -/
theorem inflight_none_of_request {cfg : Config} {q : Requester} (h : inflightOK cfg q = true) {req : Request}
    {rest : List Request} (hq : q.queue = req :: rest) (ha : requestArgs cfg req = none) : q.inflight = none := by
  cases hp : q.inflight with
  | none => rfl
  | some p =>
    obtain ⟨req', rest', id, byte, enc, hq', ha', -⟩ := inflight_request h hp
    rw [hq] at hq'; cases hq'; rw [ha] at ha'; cases ha'

/-- A request that names no priority set asks nothing of the priority file. -/
theorem requestArgs_none_of_not {cfg : Config} {q : Request} {i : Instr} (hd : decode q = .ok i)
    (hi : isPrioSet i = false) : requestArgs cfg q = none := by
  simp only [requestArgs, hd]
  cases i <;> simp [isPrioSet] at hi <;> rfl

theorem inflightOK_of_none {cfg : Config} {q : Requester} (h : q.inflight = none) : inflightOK cfg q = true := by
  simp [inflightOK, h]

theorem copyOK_of_none {s : State} {q : Requester} (h : q.inflight = none) : copyOK s q = true := by
  simp [copyOK, h]

/-- `copyOK` looks only at the bytes that no operation reaches. -/
theorem copyOK_congr {s t : State} (hc : t.cfg = s.cfg)
    (hp : ∀ k, reachableByte s.cfg k = false → t.priByte k = s.priByte k) (q : Requester) : copyOK t q = copyOK s q := by
  simp only [copyOK, hc]
  cases q.inflight with
  | none => rfl
  | some p =>
    simp only
    congr 1; funext l
    cases hr : reachableByte s.cfg (4 * p.w + l.val) with
    | true => simp
    | false => rw [hp _ hr]

/-! ### Everything a step can do -/

/-- What one step can do (20_memory.md R59, R60). -/
inductive MachineStep (s : State) : State → Prop where
  /-- the run has ended -/
  | ended (ht : s.turn = none) : MachineStep s s
  /-- an environment event -/
  | env (e : EnvEvent) (ht : s.turn = some (.env e)) : MachineStep s (applyEnv e { s with schedule := s.schedule.tail })
  /-- a turn of a requester with nothing outstanding -/
  | void (r : Nat) (ht : s.turn = some (.run r)) (hq : (s.requester r).queue = []) : MachineStep s (s.beginRun r)
  /-- an illegal request -/
  | illegal (r : Nat) (q : Request) (rest : List Request) (ht : s.turn = some (.run r))
      (hq : (s.requester r).queue = q :: rest) (hd : decode q = .error .reservedBits) :
      MachineStep s (failWith .reserved (s.beginRun r))
  /-- a phase of an operation -/
  | phase (r : Nat) (q : Request) (rest : List Request) (i : Instr) (t : State) (ht : s.turn = some (.run r))
      (hq : (s.requester r).queue = q :: rest) (hd : decode q = .ok i) (he : exec i (s.beginRun r) = .next t)
      (hp : PhaseStep (s.beginRun r) i t) : MachineStep s t

/-- A step from a legal configuration whose in-flight records name words of the file answers a next state, and does one of
the things of `MachineStep`. -/
theorem step_cases {s : State} (h : s.cfg.legal = true) (hw : WordsInFile s) :
    ∃ t, step s = .next t ∧ MachineStep s t := by
  cases ht : s.turn with
  | none => exact ⟨_, by simp [step, h, ht], .ended ht⟩
  | some u =>
    cases u with
    | env e => exact ⟨_, by simp [step, h, ht], .env e ht⟩
    | run r =>
      cases hq : (s.requester r).queue with
      | nil => exact ⟨_, by simp [step, h, ht, runPhase, State.outstanding, hq], .void r ht hq⟩
      | cons q rest =>
        cases hd : decode q with
        | error e =>
          cases e
          exact ⟨_, by simp [step, h, ht, runPhase, State.outstanding, hq, hd], .illegal r q rest ht hq hd⟩
        | ok i =>
          obtain ⟨t, he, hp⟩ := exec_step (s := s.beginRun r) h (fun p hp => hw r p hp) i
          exact ⟨t, by simp [step, h, ht, runPhase, State.outstanding, hq, hd, he], .phase r q rest i t ht hq hd he hp⟩

/-- If a step answers a next state, it does one of the things of `MachineStep`. -/
theorem step_next {s t : State} (h : s.cfg.legal = true) (hw : WordsInFile s) (ht : step s = .next t) : MachineStep s t := by
  obtain ⟨t', ht', hs⟩ := step_cases h hw
  rw [ht'] at ht; cases ht; exact hs

/-! ### The step, case by case -/

section
variable {s : State} (h : s.cfg.legal = true)
include h

theorem step_of_ended (ht : s.turn = none) : step s = .next s := by
  simp [step, h, ht]

theorem step_of_env {e : EnvEvent} (ht : s.turn = some (.env e)) :
    step s = .next (applyEnv e { s with schedule := s.schedule.tail }) := by
  simp [step, h, ht]

theorem step_of_void {r : Nat} (ht : s.turn = some (.run r)) (hq : (s.requester r).queue = []) :
    step s = .next (s.beginRun r) := by
  simp [step, h, ht, runPhase, State.outstanding, hq]

theorem step_of_illegal {r : Nat} {q : Request} {rest : List Request} (ht : s.turn = some (.run r))
    (hq : (s.requester r).queue = q :: rest) (hd : decode q = .error .reservedBits) :
    step s = .next (failWith .reserved (s.beginRun r)) := by
  simp [step, h, ht, runPhase, State.outstanding, hq, hd]

theorem step_of_decoded {r : Nat} {q : Request} {rest : List Request} {i : Instr} (ht : s.turn = some (.run r))
    (hq : (s.requester r).queue = q :: rest) (hd : decode q = .ok i) : step s = exec i (s.beginRun r) := by
  simp [step, h, ht, runPhase, State.outstanding, hq, hd]

end

/-! ### Runs -/

theorem runSteps_zero (s : State) : runSteps 0 s = .next s := rfl

theorem runSteps_succ {n : Nat} {s t : State} (h : step s = .next t) : runSteps (n + 1) s = runSteps n t := by
  have h' : Sys2Proof.core.step s = .next t := h
  simp only [runSteps, Host.Core.run, h']; rfl

end Sys2Proof.Laws
end

