-- ==== Sys2Proof/Laws/Text.lean ====
section
/-! SUPPORT. Lemmas about the text syntax (30_encoding.md R75): a number is read back as written, and a line falls into its
mnemonic and the texts between its commas. -/

namespace Sys2Proof.Laws

open Sys2Proof Sys2Proof.Machine

/-! ### Numbers -/

theorem digitVal_hexChar (d : Nat) (h : d < 16) : digitVal (hexChar d) = some d := by
  have : ∀ d : Fin 16, digitVal (hexChar d.val) = some d.val := by decide
  exact this ⟨d, h⟩

/-- A character that is no blank, no comma and begins no comment. -/
abbrev Plain (c : Char) : Prop :=
  isBlank c = false ∧ c ≠ ';' ∧ c ≠ ','

theorem plain_hexChar (d : Nat) (h : d < 16) : Plain (hexChar d) := by
  have : ∀ d : Fin 16, Plain (hexChar d.val) := by decide
  exact this ⟨d, h⟩

theorem showNumber_eq (n : Nat) : showNumber n = ['0', 'x', hexChar (n / 16 ^ 7 % 16), hexChar (n / 16 ^ 6 % 16),
    hexChar (n / 16 ^ 5 % 16), hexChar (n / 16 ^ 4 % 16), hexChar (n / 16 ^ 3 % 16), hexChar (n / 16 ^ 2 % 16),
    hexChar (n / 16 ^ 1 % 16), hexChar (n / 16 ^ 0 % 16)] := rfl

theorem plain_showNumber (n : Nat) : ∀ c ∈ showNumber n, Plain c := by
  rw [showNumber_eq]
  intro c hc
  simp only [List.mem_cons, List.not_mem_nil, or_false] at hc
  rcases hc with rfl | rfl | rfl | rfl | rfl | rfl | rfl | rfl | rfl | rfl
  · decide
  · decide
  all_goals exact plain_hexChar _ (Nat.mod_lt _ (by decide))

/-- A 32-bit number is read back as it was written. -/
theorem parseNumber_showNumber (n : Nat) (h : n < 2 ^ 32) : parseNumber (showNumber n) = some n := by
  rw [showNumber_eq]
  have hl : ∀ k, n / 16 ^ k % 16 < 16 := fun k => Nat.mod_lt _ (by decide)
  have hd : ∀ k, digitVal (hexChar (n / 16 ^ k % 16)) = some (n / 16 ^ k % 16) := fun k => digitVal_hexChar _ (hl k)
  simp only [parseNumber, parseDigits, List.isEmpty_cons, Bool.false_eq_true, if_false, digitsFrom, hd, hl, if_true]
  congr 1; omega

/-! ### Commas and blanks -/

theorem splitCommas_plain (l : List Char) (h : ∀ c ∈ l, c ≠ ',') : splitCommas l = [l] := by
  induction l with
  | nil => rfl
  | cons c rest ih =>
    simp [splitCommas, ih (fun c hc => h c (List.mem_cons_of_mem _ hc)), h c List.mem_cons_self]

theorem splitCommas_ne_nil (l : List Char) : splitCommas l ≠ [] := by
  cases l with
  | nil => simp [splitCommas]
  | cons c r =>
    simp only [splitCommas]
    split
    · simp
    · split <;> simp

theorem splitCommas_cons (l r : List Char) (h : ∀ c ∈ l, c ≠ ',') : splitCommas (l ++ ',' :: r) = l :: splitCommas r := by
  induction l with
  | nil =>
    simp only [List.nil_append, splitCommas]
    cases hr : splitCommas r with
    | nil => exact absurd hr (splitCommas_ne_nil r)
    | cons a b => simp
  | cons c rest ih =>
    simp [splitCommas, ih (fun c hc => h c (List.mem_cons_of_mem _ hc)), h c List.mem_cons_self]

theorem dropBlanks_self (l : List Char) (h : ∀ c ∈ l, isBlank c = false) : l.dropWhile isBlank = l := by
  cases l with
  | nil => rfl
  | cons c r => simp [h c List.mem_cons_self]

theorem trimBlanks_self (l : List Char) (h : ∀ c ∈ l, isBlank c = false) : trimBlanks l = l := by
  rw [trimBlanks, dropBlanks_self l h, dropBlanks_self l.reverse (by simpa using h), List.reverse_reverse]

theorem trimBlanks_blank (l : List Char) (h : ∀ c ∈ l, isBlank c = false) : trimBlanks (' ' :: l) = l := by
  rw [trimBlanks, show (' ' :: l).dropWhile isBlank = l.dropWhile isBlank by simp [isBlank], dropBlanks_self l h,
    dropBlanks_self l.reverse (by simpa using h), List.reverse_reverse]

/-- A line made of a mnemonic, a blank and operands that end in no blank is parsed by its mnemonic and its operands. -/
theorem parseLine_parts (name body : List Char) (hn : ∀ c ∈ name, Plain c) (hne : name ≠ []) (hb : ∀ c ∈ body, c ≠ ';')
    (hlast : ∃ b c, body = b ++ [c] ∧ isBlank c = false) :
    parseLine (name ++ ' ' :: body) = parseOperands name ((splitCommas (' ' :: body)).map trimBlanks) := by
  have h1 : dropComment (name ++ ' ' :: body) = name ++ ' ' :: body := by
    rw [dropComment, List.takeWhile_eq_self_iff]
    intro c hc
    simp only [List.mem_append, List.mem_cons] at hc
    rcases hc with hc | rfl | hc
    · simpa using (hn c hc).2.1
    · decide
    · simpa using hb c hc
  have h2 : trimBlanks (name ++ ' ' :: body) = name ++ ' ' :: body := by
    obtain ⟨b, c, rfl, hc⟩ := hlast
    obtain ⟨a, n', rfl⟩ : ∃ a n', name = a :: n' := by
      cases name with
      | nil => exact absurd rfl hne
      | cons a n => exact ⟨a, n, rfl⟩
    have ha := (hn a List.mem_cons_self).1
    rw [trimBlanks, List.cons_append, List.dropWhile_cons_of_neg (by simp [ha]),
      show (a :: (n' ++ ' ' :: (b ++ [c]))).reverse = c :: (a :: (n' ++ ' ' :: b)).reverse by simp,
      List.dropWhile_cons_of_neg (by simp [hc])]
    simp
  have h3 : (name ++ ' ' :: body).takeWhile (fun c => !isBlank c) = name := by
    rw [List.takeWhile_append_of_pos (by intro c hc; simp [(hn c hc).1])]
    simp [isBlank]
  have h4 : (name ++ ' ' :: body).dropWhile (fun c => !isBlank c) = ' ' :: body := by
    rw [List.dropWhile_append_of_pos (by intro c hc; simp [(hn c hc).1])]
    simp [isBlank]
  simp only [parseLine, h1, h2, h3, h4]

end Sys2Proof.Laws
end

