-- ==== Sys2Proof/Tests/Slice0.lean ====
section
/-! SUPPORT. Tests: expected values are those of 30_encoding.md R77 and of the vectors V1 to V52 of 95_test_vectors.md; and,
for each statement with hypotheses, a concrete state and operands that meet them. -/

namespace Sys2Proof.Tests

open Sys2Proof Sys2Proof.Machine Sys2Proof.Laws

/-! ### Small machines -/

/-- The configurations the witnesses use: the spec's examples, the largest, and the smallest with the aliasing mode. -/
def cfg68 : Config := Config.initial
def cfgFaith : Config := { Config.initial with prioIndexMode := .faithful, mode := .g4s4 }
def cfg96 : Config := { Config.initial with numIrq := 96 }
/-- Five lines, so that the file has two words: the invariant is quick to evaluate. -/
def cfg5 : Config := { Config.initial with numIrq := 5 }
def cfg5F : Config := { cfg5 with prioIndexMode := .faithful, mode := .g4s4 }
def cfg1 : Config := { Config.initial with numIrq := 1, mode := .g16s0 }

/-- "Start zero" of 95_test_vectors.md, under a configuration. -/
def zeroOf (cfg : Config) : State := State.resetFrom cfg ResetDraw.zero

/-- The start of V21: `EN_W` and `PEND_W` are `0x0000FFFF, 0, 0x80000000`. -/
def v21 : State :=
  { zeroOf cfg68 with en := 0x80000000000000000000FFFF#96, pend := 0x80000000000000000000FFFF#96 }

/-- The start of V43: `PRI_W[1] = 0x30201000`. -/
def v43 (cfg : Config) : State :=
  State.resetFrom cfg { ResetDraw.zero with nibbles := [0#4, 0#4, 0#4, 0#4, 0#4, 1#4, 2#4, 3#4] }

/-- The outcome is a next state, and it has the property. -/
def nextIs (o : Result) (p : State → Bool) : Bool :=
  match o with
  | .next t => p t
  | _ => false

/-- The state after a step, where there is one. -/
def stepOr (s : State) : State :=
  match step s with
  | .next t => t
  | _ => s

theorem step_stepOr {s : State} (h : Inv s) : step s = .next (stepOr s) := by
  obtain ⟨t, ht, -⟩ := step_cases h.1 (wordsInFile_of_inv h)
  simp only [stepOr, ht]

/-- The latest response of the current requester carries this value. -/
def answers (t : State) (v : Word) : Bool :=
  match t.me.responses.getLast? with
  | some r => r.status && r.rvalid && r.rdata == v && t.me.out == v
  | none => false

/-- The latest response of the current requester is ok without data. -/
def answersOk (t : State) : Bool :=
  match t.me.responses.getLast? with
  | some r => r.status && !r.rvalid
  | none => false

/-- The latest response of the current requester is not-ok, and the kind recorded is this one. -/
def answersNotOk (t : State) (k : ErrKind) : Bool :=
  (match t.me.responses.getLast? with
  | some r => !r.status && !r.rvalid
  | none => false) && t.diag == some k

/-! ### Decoding: words written out from 30_encoding.md R67 and V10 -/

theorem test_decode_enableIRQ : decode ⟨0x00000008#32, 0x00000003#32, 0xDEADBEEF#32, 0x00000001#32⟩ = .ok (.enableIRQ 3#32) := by
  decide
theorem test_decode_disableIRQ : decode ⟨0x00000001#32, 0x00000025#32, 0#32, 0#32⟩ = .ok (.disableIRQ 37#32) := by decide
theorem test_decode_setPendingIRQ : decode ⟨0x00000002#32, 0x00000040#32, 0#32, 0#32⟩ = .ok (.setPendingIRQ 64#32) := by decide
theorem test_decode_clearPendingIRQ : decode ⟨0x00000003#32, 0x00000060#32, 0#32, 0#32⟩ = .ok (.clearPendingIRQ 96#32) := by
  decide
theorem test_decode_getPendingIRQ : decode ⟨0x0000000C#32, 0x00000040#32, 0#32, 0#32⟩ = .ok (.getPendingIRQ 64#32 true) := by
  decide
theorem test_decode_setPriorityRaw : decode ⟨0x00000005#32, 0x0000000C#32, 0x000000FF#32, 0#32⟩ = .ok (.setPriorityRaw 12#32 255#32) := by
  decide
theorem test_decode_setPriorityGrouped :
    decode ⟨0x00000006#32, 0x0000000A#32, 0x00000007#32, 0x00000001#32⟩ = .ok (.setPriorityGrouped 10#32 7#32 1#32) := by
  decide
theorem test_decode_getPriority : decode ⟨0x00000007#32, 0x00000003#32, 0#32, 0#32⟩ = .ok (.getPriority 3#32 false) := by decide
theorem test_decode_rsv4 : decode ⟨0x00000010#32, 0#32, 0#32, 0#32⟩ = .error .reservedBits := by decide
theorem test_decode_rsv31 : decode ⟨0x80000002#32, 1#32, 0#32, 0#32⟩ = .error .reservedBits := by decide
theorem test_decode_rsvAll : decode ⟨0xFFFFFFF7#32, 0#32, 0#32, 0#32⟩ = .error .reservedBits := by decide

/-- The opcode table's `match` words, with every operand word zero (spec/opcode_table.json). -/
theorem test_decode_table :
    (List.range 8).map (decodeTableWord 32) =
      [some (.enableIRQ 0#32), some (.disableIRQ 0#32), some (.setPendingIRQ 0#32), some (.clearPendingIRQ 0#32),
       some (.getPendingIRQ 0#32 false), some (.setPriorityRaw 0#32 0#32), some (.setPriorityGrouped 0#32 0#32 0#32),
       some (.getPriority 0#32 false)] := by decide
/-- The operand words count on from the bits of `CTRL`. -/
theorem test_decode_operand_words :
    decodeTableWord 128 0x00000001000000070000000A00000006 = some (.setPriorityGrouped 10#32 7#32 1#32) := by decide

/-! ### Well-formedness: each check refuses an ill-formed term -/

theorem test_wf_request_rsv : Request.wellFormed ⟨0x00000010#32, 0#32, 0#32, 0#32⟩ = false := by decide
theorem test_wf_numIrq_zero : Config.numIrqLegal { cfg68 with numIrq := 0 } = false := by decide
theorem test_wf_numIrq_97 : Config.numIrqLegal { cfg68 with numIrq := 97 } = false := by decide
theorem test_wf_base_unaligned : Config.basesAligned { cfg68 with iserBase := 0xE000E102#32 } = false := by decide
theorem test_wf_base_high : Config.addressesFit { cfg68 with icprBase := 0xFFFFFFF8#32 } = false := by decide
theorem test_wf_ranges_overlap : Config.rangesDisjoint { cfg68 with icerBase := 0xE000E108#32 } = false := by decide
theorem test_wf_fitsWord : fitsWord (2 ^ 32) = false := by decide
theorem test_wf_text : TextReq.wellFormed (.setPriorityGrouped 0 0 (2 ^ 32)) = false := by decide
theorem test_wf_config_legal : cfg68.legal = true ∧ cfgFaith.legal = true ∧ cfg96.legal = true ∧ cfg1.legal = true ∧
    cfg5.legal = true := by decide
theorem test_wf_config_ill : Config.legal { cfg68 with numIrq := 97 } = false := by decide

/-! ### The text syntax (30_encoding.md R75, R77) -/

theorem test_text_comment : assembleLine "SetPriorityRaw 12, 0x12 ; a comment".toList = some ⟨5#32, 12#32, 0x12#32, 0#32⟩ := by
  decide
theorem test_text_unknown : assembleLine "EnableIRQS 37".toList = none := by decide
theorem test_text_too_large : assembleLine "EnableIRQ 4294967296".toList = none := by decide

/-! ### One phase of each operation -/

/-- V21, `EnableIRQ 16`. -/
theorem test_enableIRQ : nextIs (exec (.enableIRQ 16#32) v21) (fun t =>
    t.en == 0x80000000000000000001FFFF#96 && t.pend == v21.pend && answersOk t) = true := by decide
/-- V20: id 96 is not accepted. -/
theorem test_enableIRQ_96 : nextIs (exec (.enableIRQ 96#32) v21) (fun t => t.en == v21.en && answersNotOk t .idRange) = true := by
  decide
/-- V21, `DisableIRQ 0`. -/
theorem test_disableIRQ : nextIs (exec (.disableIRQ 0#32) v21) (fun t => t.en == 0x80000000000000000000FFFE#96 && answersOk t) =
    true := by decide
/-- V21, `DisableIRQ 40`. -/
theorem test_disableIRQ_clear : nextIs (exec (.disableIRQ 40#32) v21) (fun t => t.en == v21.en && answersOk t) = true := by decide
/-- V21, `SetPendingIRQ 94`. -/
theorem test_setPendingIRQ : nextIs (exec (.setPendingIRQ 94#32) v21) (fun t =>
    t.pend == 0xC0000000000000000000FFFF#96 && t.en == v21.en && answersOk t) = true := by decide
/-- V21, `ClearPendingIRQ 95`. -/
theorem test_clearPendingIRQ : nextIs (exec (.clearPendingIRQ 95#32) v21) (fun t =>
    t.pend == 0x00000000000000000000FFFF#96 && t.en == v21.en && answersOk t) = true := by decide
/-- V21, `GetPendingIRQ 15` and `GetPendingIRQ 16`. -/
theorem test_getPendingIRQ : nextIs (exec (.getPendingIRQ 15#32 true) v21) (fun t => answers t 1#32) = true ∧
    nextIs (exec (.getPendingIRQ 16#32 true) v21) (fun t => answers t 0#32) = true := by decide
/-- V21, `GetPendingIRQ 15, null` and `GetPendingIRQ 96, null`. -/
theorem test_getPendingIRQ_null : nextIs (exec (.getPendingIRQ 15#32 false) v21) (fun t => answersNotOk t .nullOut) = true ∧
    nextIs (exec (.getPendingIRQ 96#32 false) v21) (fun t => answersNotOk t .idRange) = true := by decide
/-- V43, `SetPriorityRaw 6, 9` in both index modes: the record that `P1` makes, with the copy of the word. -/
theorem test_setPriorityRaw_p1 :
    nextIs (exec (.setPriorityRaw 6#32 9#32) (v43 cfg68)) (fun t =>
      t.me.inflight == some ⟨1, 2, 0x90#8, 0x05FA0700#32, .p2, 0x30201000#32⟩ && t.pri == (v43 cfg68).pri) = true ∧
    nextIs (exec (.setPriorityRaw 6#32 9#32) (v43 cfgFaith)) (fun t =>
      t.me.inflight == some ⟨1, 0, 0x90#8, 0x05FA0700#32, .p2, 0x30201000#32⟩) = true := by decide
/-- V43, `P2`: the merged word. -/
theorem test_setPriorityRaw_p2 :
    nextIs (exec (.setPriorityRaw 6#32 9#32)
      (setInflight (some ⟨1, 2, 0x90#8, 0x05FA0700#32, .p2, 0x30201000#32⟩) (v43 cfg68))) (fun t =>
      t.priWord 1 == 0x30901000#32 && t.priWord 0 == 0#32 && t.scr == 0#32) = true := by decide
/-- V4, `SetPriorityGrouped 10, 7, 1` in `G8S2`: the field byte `0xF0` and `ENC(G8S2)`. -/
theorem test_setPriorityGrouped_p1 : nextIs (exec (.setPriorityGrouped 10#32 7#32 1#32) (zeroOf cfg68)) (fun t =>
    t.me.inflight == some ⟨2, 2, 0xF0#8, 0x05FA0400#32, .p2, 0#32⟩) = true := by decide
/-- V4, `P3`: `SCR` is written, the record is cleared and the answer is ok. -/
theorem test_setPriorityGrouped_p3 : nextIs (exec (.setPriorityGrouped 10#32 7#32 1#32)
    (setInflight (some ⟨2, 2, 0xF0#8, 0x05FA0400#32, .p3, 0#32⟩) (zeroOf cfg68))) (fun t =>
    t.scr == 0x05FA0400#32 && t.me.inflight == none && answersOk t) = true := by decide
/-- V43: `GetPriority 5` before the write, in both index modes. -/
theorem test_getPriority : nextIs (exec (.getPriority 5#32 true) (v43 cfg68)) (fun t => answers t 1#32) = true ∧
    nextIs (exec (.getPriority 5#32 true) (v43 cfgFaith)) (fun t => answers t 0#32) = true := by decide
/-- V44: the order of the checks. -/
theorem test_check_order :
    nextIs (exec (.setPriorityRaw 68#32 256#32) (zeroOf cfg68)) (fun t => answersNotOk t .idRange) = true ∧
    nextIs (exec (.setPriorityRaw 3#32 256#32) (zeroOf cfg68)) (fun t => answersNotOk t .prioRange) = true ∧
    nextIs (exec (.setPriorityGrouped 68#32 8#32 0#32) (zeroOf cfg68)) (fun t => answersNotOk t .groupSub) = true ∧
    nextIs (exec (.getPriority 68#32 false) (zeroOf cfg68)) (fun t => answersNotOk t .idRange) = true := by decide

/-- V40: the packed values of two rows for each mode, and a group one too large. -/
theorem test_pack :
    [pack .g16s0 5 0, pack .g8s2 5 1, pack .g4s4 2 1, pack .g2s8 1 0, pack .g0s16 0 9] = [5#32, 11#32, 9#32, 8#32, 9#32] ∧
    [gsOK .g16s0 16 0, gsOK .g8s2 8 0, gsOK .g4s4 4 0, gsOK .g2s8 0 8, gsOK .g0s16 0 16, gsOK .g8s2 0xFFFFFFFF 0] =
      [false, false, false, false, false, false] := by decide
/-- V41: the splitting of a read-back nibble. -/
theorem test_split : splitGroup .g4s4 9 = 2#32 ∧ splitSub .g4s4 9 = 1#32 ∧ splitGroup .g2s8 13 = 1#32 ∧
    splitSub .g2s8 13 = 5#32 := by decide
/-- V20 and V30: the indices. -/
theorem test_indexer : (bank 37, bitpos 37, bitmask 37) = (1, 5, 0x20#32) ∧
    (pword 10, (plane .corrected 10).val, slot .corrected 10, slot .faithful 10) = (2, 2, 10, 8) := by decide

/-! ### One step of the machine -/

/-- The first step after reset runs the word that is placed: `EnableIRQ 0`. -/
theorem test_step_enableIRQ : nextIs (step (State.reset.withFetchWord 32 0)) (fun t => t.en == 1#96 && answersOk t) = true := by
  decide
/-- A placed `GetPriority` with the null output: not-ok. -/
theorem test_step_getPriority : nextIs (step (State.reset.withFetchWord 32 7)) (fun t => answersNotOk t .nullOut) = true := by
  decide
/-- Program 4, row 2: an illegal request is answered not-ok. -/
theorem test_step_illegal : nextIs (step (State.reset.withFetchWord 64 0x0000000180000002)) (fun t =>
    t.pend == 0#96 && answersNotOk t .reserved) = true := by decide
/-- V22: `EnvSetPending(7)`. -/
theorem test_step_env : nextIs (step { zeroOf cfg68 with schedule := [.env (.setPending 7)] }) (fun t =>
    t.pend == 0x80#96 && t.schedule == []) = true := by decide
/-- With no turn scheduled the lowest-numbered requester moves. -/
theorem test_step_drain : nextIs (step (startRun cfg68 ResetDraw.zero [[], [encode (.enableIRQ 1#32)]] [])) (fun t =>
    t.en == 2#96 && t.cur == 1) = true := by decide

/-! ### Witnesses: concrete states and operands that meet the hypotheses of each statement, clause by clause

The ranges meet at 95 and 96 for a bank id, at `NUM_IRQ - 1` and `NUM_IRQ` for a priority id, at 255 and 256 for a raw value,
and at the maxima of the mode for a group and a sub-priority. -/

/-- A start with requesters and a schedule. -/
def begin (cfg : Config) (programs : List (List Request)) (schedule : List Turn) : State :=
  startRun cfg ResetDraw.zero programs schedule

/-- One requester with one operation, and its turn. -/
def one (i : Instr) : State := begin cfg5 [[encode i]] [.run 0]

/-- A record of `SetPriorityRaw 4, 255` under `cfg5`, between `P1` and `P2`, and between `P2` and `P3`. -/
def rec2 : PrioSet := ⟨1, 0, 0xF0#8, 0x05FA0700#32, .p2, 0#32⟩
def rec3 : PrioSet := { rec2 with next := .p3 }

/-- The requester 0 with `SetPriorityRaw 4, 255` outstanding and that record. -/
def between (p : PrioSet) : State := setInflight (some p) (one (.setPriorityRaw 4#32 255#32))

theorem witness_invariant : Inv (begin cfg1 [] []) ∧ Inv (one (.enableIRQ 95#32)) ∧ Inv (between rec2) ∧ Inv (between rec3) := by
  decide

theorem witness_DecodeOfEncode : Instr.wellFormed (.setPriorityGrouped 0xFFFFFFFF#32 0xFFFFFFFF#32 0xFFFFFFFF#32) = true ∧
    Instr.wellFormed (.getPriority 0#32 false) = true := by decide

theorem witness_EncodeOfDecode :
    decode ⟨0x00000008#32, 3#32, 0xDEADBEEF#32, 1#32⟩ = .ok (.enableIRQ 3#32) ∧
    decode ⟨0x0000000F#32, 0xFFFFFFFF#32, 1#32, 1#32⟩ = .ok (.getPriority 0xFFFFFFFF#32 true) := by decide

/-- Each side of each equivalence is met by some request. -/
theorem witness_MaskSelectsOperation :
    (0x00000010#32 : Word) &&& 0xFFFFFFF0#32 ≠ 0#32 ∧ (0x0000000F#32 : Word) &&& 0xFFFFFFF7#32 = (7#3).setWidth 32 ∧
    decode ⟨0x0000000F#32, 0#32, 0#32, 0#32⟩ = .ok (.getPriority 0#32 true) := by decide

theorem witness_UnusedFieldsIgnored : ∃ s t : State, ∃ q q' : Request, Inv s ∧ s.turn = some (.run 0) ∧
    (s.requester 0).queue = q :: [] ∧ SameUsed q q' ∧ q ≠ q' ∧ step s = .next t :=
  ⟨one (.enableIRQ 3#32), _, encode (.enableIRQ 3#32), ⟨0x00000008#32, 3#32, 0xDEADBEEF#32, 1#32⟩, witness_one, by decide,
    by decide, by decide, by decide, step_stepOr witness_one⟩
where witness_one : Inv (one (.enableIRQ 3#32)) := by decide

theorem witness_TextLineRoundTrip : TextReq.wellFormed (.setPriorityGrouped (2 ^ 32 - 1) 0 (2 ^ 32 - 1)) = true ∧
    TextReq.wellFormed (.getPriority 0 true) = true := by decide

/-- A legal configuration, the last register of the file, and the register one word further, which is not in the map. -/
theorem witness_AddressMapExact : cfg68.legal = true ∧ inMap cfg68 (.ipr 16) = true ∧ inMap cfg68 (.ipr 17) = false ∧
    csrAt cfg68 0xE000E440 = some (.ipr 16) ∧ csrAt cfg68 0xE000E444 = none ∧ inMap cfg68 .scr = true ∧
    inMap cfg68 (.iser 2) = true ∧ inMap cfg68 (.iser 3) = false := by decide

/-- `CsrReadTable`, `CsrWriteTable`, `RepeatedWrites` and `PriorityByteOrder`: the last word of each range. -/
theorem witness_CsrTables : (zeroOf cfg5).cfg.legal = true ∧ PriWf (zeroOf cfg5) ∧ (2 : Nat) < 3 ∧
    1 < priWords (zeroOf cfg5).cfg ∧ ¬ 2 < priWords (zeroOf cfg5).cfg := by decide

theorem witness_RepeatedWrites : iserAddr cfg68 2 ∈ [iserAddr cfg68 2, icerAddr cfg68 2, isprAddr cfg68 2, icprAddr cfg68 2] ∧
    (scrAddrOf cfg68 = scrAddrOf cfg68 ∨ ∃ w, w < priWords cfg68 ∧ scrAddrOf cfg68 = iprAddr cfg68 w) ∧
    (95#32 : Word).toNat < 96 := by
  refine ⟨by decide, .inl rfl, by decide⟩

theorem witness_EnvironmentEvent :
    (begin cfg68 [] [.env (.setPending 95)]).schedule = .env (.setPending 95) :: [] ∧
    (begin cfg68 [] [.env (.clearPending 0)]).schedule = .env (.clearPending 0) :: [] := by decide

/-- `PackValue` and `SplitInvertsPack`: the maxima of two modes. -/
theorem witness_PackValue : (7#32 : Word).toNat ≤ maxGroup .g8s2 ∧ (1#32 : Word).toNat ≤ maxSub .g8s2 ∧
    (0#32 : Word).toNat ≤ maxGroup .g0s16 ∧ (15#32 : Word).toNat ≤ maxSub .g0s16 := by decide

theorem witness_FieldByteAndUnpack : (0xF0#8 : Byte) &&& 0x0F#8 = 0#8 := by decide

theorem witness_BankDecomposition : (95#32 : Word).toNat < 96 := by decide

theorem witness_IndexRanges : cfg68.legal = true ∧ (95#32 : Word).toNat < 96 ∧ (67#32 : Word).toNat < cfg68.numIrq ∧
    ¬ (68#32 : Word).toNat < cfg68.numIrq ∧ cfg1.legal = true ∧ (0#32 : Word).toNat < cfg1.numIrq := by decide

theorem witness_SlotsSharedOrDistinct : (64#32 : Word).toNat / 4 = (67#32 : Word).toNat / 4 ∧
    slot .corrected 67#32 = slot .corrected 67#32 ∧ (zeroOf cfgFaith).cfg.legal = true ∧
    (zeroOf cfgFaith).cfg.prioIndexMode = .faithful ∧ (64#32 : Word).toNat < (zeroOf cfgFaith).cfg.numIrq ∧
    (67#32 : Word).toNat < (zeroOf cfgFaith).cfg.numIrq := by decide

/-- The five bank operations: a control word of each, the last id that is accepted and the first that is not. -/
theorem witness_bank_operations :
    ([0x00000008#32, 0x00000009#32, 0x0000000A#32, 0x0000000B#32, 0x0000000C#32].map fun c : Word => c &&& 0xFFFFFFF7#32) =
      [0b000#32, 0b001#32, 0b010#32, 0b011#32, 0b100#32] ∧
    v21.cfg.legal = true ∧ (95#32 : Word).toNat < 96 ∧ 96 ≤ (96#32 : Word).toNat := by decide

theorem witness_BankOperationLaws : v21.cfg.legal = true ∧ (95#32 : Word).toNat < 96 ∧ 96 ≤ (0x80000005#32 : Word).toNat ∧
    Instr.getPendingIRQ 96#32 true ∈ [Instr.enableIRQ 96#32, .disableIRQ 96#32, .setPendingIRQ 96#32, .clearPendingIRQ 96#32,
      .getPendingIRQ 96#32 true] := by decide

theorem witness_BankOperationsNeverCorrupt :
    Instr.enableIRQ ∈ [Instr.enableIRQ, .disableIRQ, .setPendingIRQ, .clearPendingIRQ] ∧
    Instr.clearPendingIRQ ∈ [Instr.enableIRQ, .disableIRQ, .setPendingIRQ, .clearPendingIRQ] ∧
    v21.cfg.legal = true ∧ (1#32 : Word).toNat < 96 ∧ (95#32 : Word).toNat < 96 ∧ (1#32 : Word) ≠ 95#32 := by
  refine ⟨by simp, by simp, by decide, by decide, by decide, by decide⟩

/-- The three phases, at the last id of the file. -/
theorem witness_PriorityWritePhases :
    ((one (.setPriorityRaw 4#32 255#32)).me.inflight = none ∧
      prioArgs cfg5 (.setPriorityRaw 4#32 255#32) = some (4#32, 0xF0#8, 0x05FA0700#32)) ∧
    ((between rec2).cfg.legal = true ∧ PriWf (between rec2) ∧ isPrioSet (.setPriorityRaw 4#32 255#32) = true ∧
      (between rec2).me.inflight = some rec2 ∧ rec2.next = .p2 ∧ rec2.w < priWords (between rec2).cfg) ∧
    ((between rec3).me.inflight = some rec3 ∧ rec3.next = .p3) := by decide

/-- `SetPriorityRaw` and `RawRoundTrip`: 4 and 5, 255 and 256. -/
theorem witness_SetPriorityRaw : (0x0000000D#32 : Word) &&& 0xFFFFFFF7#32 = 0b101#32 ∧ (zeroOf cfg5).cfg.legal = true ∧
    PriWf (zeroOf cfg5) ∧ (zeroOf cfg5).me.inflight = none ∧ (4#32 : Word).toNat < (zeroOf cfg5).cfg.numIrq ∧
    (255#32 : Word).toNat ≤ 255 ∧ (zeroOf cfg5).cfg.numIrq ≤ (5#32 : Word).toNat ∧ 255 < (256#32 : Word).toNat := by decide

/-- `SetPriorityGrouped` and `GroupedRoundTrip`: the maxima of `G8S2` and one above each. -/
theorem witness_SetPriorityGrouped : (0x0000000E#32 : Word) &&& 0xFFFFFFF7#32 = 0b110#32 ∧ (zeroOf cfg5).cfg.legal = true ∧
    PriWf (zeroOf cfg5) ∧ (zeroOf cfg5).me.inflight = none ∧ (7#32 : Word).toNat ≤ maxGroup (zeroOf cfg5).cfg.mode ∧
    (1#32 : Word).toNat ≤ maxSub (zeroOf cfg5).cfg.mode ∧ (4#32 : Word).toNat < (zeroOf cfg5).cfg.numIrq ∧
    maxGroup (zeroOf cfg5).cfg.mode < (8#32 : Word).toNat ∧ maxSub (zeroOf cfg5).cfg.mode < (2#32 : Word).toNat ∧
    (zeroOf cfg5).cfg.numIrq ≤ (5#32 : Word).toNat := by decide

/-- A second id of the word in `Faithful` mode, for `GroupedRoundTrip`. -/
theorem witness_GroupedRoundTrip_faithful : (zeroOf cfg5F).cfg.legal = true ∧ PriWf (zeroOf cfg5F) ∧
    (zeroOf cfg5F).me.inflight = none ∧ (3#32 : Word).toNat ≤ maxGroup (zeroOf cfg5F).cfg.mode ∧
    (3#32 : Word).toNat ≤ maxSub (zeroOf cfg5F).cfg.mode ∧ (0#32 : Word).toNat < (zeroOf cfg5F).cfg.numIrq ∧
    (zeroOf cfg5F).cfg.prioIndexMode = .faithful ∧ (3#32 : Word).toNat / 4 = (0#32 : Word).toNat / 4 ∧
    (3#32 : Word).toNat < (zeroOf cfg5F).cfg.numIrq := by decide

theorem witness_GetPriority : (0x0000000F#32 : Word) &&& 0xFFFFFFF7#32 = 0b111#32 ∧ (zeroOf cfg1).cfg.legal = true ∧
    PriWf (zeroOf cfg1) ∧ (0#32 : Word).toNat < (zeroOf cfg1).cfg.numIrq ∧
    (zeroOf cfg1).cfg.numIrq ≤ (1#32 : Word).toNat := by decide

theorem witness_VerdictIsValidation : v21.cfg.legal = true ∧ v21.me.inflight = none := by decide

theorem witness_FailingRequestChangesNothing :
    firstFailure v21.cfg (.setPriorityGrouped 68#32 8#32 0#32) = some .groupSub ∧ v21.me.inflight = none ∧
    firstFailure (between rec2).cfg (.enableIRQ 96#32) = some .idRange ∧ isPrioSet (.enableIRQ 96#32) = false := by decide

theorem witness_ResponsesAndOutputLocation : ∃ t, (between rec3).cfg.legal = true ∧
    (∀ p, (between rec3).me.inflight = some p → p.w < priWords (between rec3).cfg) ∧
    exec (.setPriorityRaw 4#32 255#32) (between rec3) = .next t := by
  have hi : (between rec3).me.inflight = some rec3 := by decide
  have hw : ∀ p, (between rec3).me.inflight = some p → p.w < priWords (between rec3).cfg := by
    intro p hp
    rw [hi] at hp
    cases hp
    decide
  obtain ⟨t, ht, -⟩ := exec_step (by decide) hw (.setPriorityRaw 4#32 255#32)
  exact ⟨t, by decide, hw, ht⟩

theorem witness_StepRunsDecodedRequest : (one (.enableIRQ 95#32)).cfg.legal = true ∧
    (one (.enableIRQ 95#32)).turn = some (.run 0) ∧
    ((one (.enableIRQ 95#32)).requester 0).queue = encode (.enableIRQ 95#32) :: [] ∧
    decode (encode (.enableIRQ 95#32)) = .ok (.enableIRQ 95#32) ∧ Instr.wellFormed (.enableIRQ 95#32) = true := by decide

theorem witness_IllegalRequestAnsweredNotOk :
    (begin cfg68 [[⟨0x00000010#32, 0#32, 0#32, 0#32⟩]] [.run 0]).cfg.legal = true ∧
    (begin cfg68 [[⟨0x00000010#32, 0#32, 0#32, 0#32⟩]] [.run 0]).turn = some (.run 0) ∧
    ((begin cfg68 [[⟨0x00000010#32, 0#32, 0#32, 0#32⟩]] [.run 0]).requester 0).queue = ⟨0x00000010#32, 0#32, 0#32, 0#32⟩ :: [] ∧
    (0x00000010#32 : Word).extractLsb' 4 28 ≠ 0#28 ∧ (0x0000000F#32 : Word).extractLsb' 4 28 = 0#28 := by decide

/-- `NoStepStops`, `StepKeepsInvariant`, `OnlyTheMoverActs`, `UnreachableBytesNeverChange` and `ScrWrittenOnlyAndNeverRead`:
a state with the invariant, and its step. -/
theorem witness_StepKeepsInvariant : ∃ t, Inv (between rec2) ∧ step (between rec2) = .next t :=
  ⟨_, witness_invariant.2.2.1, step_stepOr witness_invariant.2.2.1⟩

theorem witness_UnreachableBytes : reachableByte cfgFaith 5 = false ∧ reachableByte { cfg68 with numIrq := 67 } 67 = false ∧
    (67#32 : Word).toNat < cfg68.numIrq := by decide

theorem witness_ResetLeavesEveryDraw : cfg68.assumeCortexMReset = false ∧ 67 < 4 * priWords cfg68 ∧
    ¬ 68 < 4 * priWords cfg68 := by decide

theorem witness_InvariantAtEveryStart : cfg1.legal = true ∧ cfg96.legal = true := by decide

theorem witness_CortexMResetSwitch : ({ cfg68 with assumeCortexMReset := true } : Config).assumeCortexMReset = true := by decide

theorem witness_ConfigurationFixed : ∃ t, step (begin cfg1 [] []) = .next t ∧
    ({ State.reset with cfg := { cfg68 with numIrq := 0 } } : State).cfg.legal = false :=
  ⟨_, step_stepOr witness_invariant.1, by decide⟩

theorem witness_OnlyEnableAndDisableChangeEnables : ∃ t, Inv (one (.enableIRQ 95#32)) ∧
    step (one (.enableIRQ 95#32)) = .next t ∧ t.en ≠ (one (.enableIRQ 95#32)).en :=
  ⟨_, witness_invariant.2.1, step_stepOr witness_invariant.2.1, by decide⟩

theorem witness_OnlyPendingAgentsChangePending : ∃ t, Inv (one (.setPendingIRQ 95#32)) ∧
    step (one (.setPendingIRQ 95#32)) = .next t ∧ t.pend ≠ (one (.setPendingIRQ 95#32)).pend :=
  ⟨_, witness_inv, step_stepOr witness_inv, by decide⟩
where witness_inv : Inv (one (.setPendingIRQ 95#32)) := by decide

theorem witness_ScrWrittenOnly : ∃ t, Inv (between rec3) ∧ step (between rec3) = .next t ∧ t.scr ≠ (between rec3).scr :=
  ⟨_, witness_invariant.2.2.2, step_stepOr witness_invariant.2.2.2, by decide⟩

theorem witness_PriorityFileWrittenOnlyInP2 : ∃ t, Inv (between rec2) ∧ step (between rec2) = .next t ∧
    t.pri ≠ (between rec2).pri :=
  ⟨_, witness_invariant.2.2.1, step_stepOr witness_invariant.2.2.1, by decide⟩

theorem witness_LowNibblesStayZero : ∃ t, cfg5.legal = true ∧
    runSteps 1 (startRun cfg5 ResetDraw.zero [[encode (.enableIRQ 95#32)]] [.run 0]) = .next t ∧
    1 < priWords (zeroOf cfg5).cfg ∧ (0x0F#32 : Word) &&& 0xF0F0F0F0#32 = 0x00#32 &&& 0xF0F0F0F0#32 :=
  ⟨_, by decide, (runSteps_succ (step_stepOr witness_invariant.2.1)).trans (runSteps_zero _), by decide, by decide⟩

theorem witness_ScrHoldsLastWrite : ∃ t, Inv (between rec3) ∧ runSteps 1 (between rec3) = .next t ∧
    lastScrWrite 1 (between rec3) = some 0x05FA0700#32 ∧ scrWriteOf (between rec3) = some 0x05FA0700#32 :=
  ⟨_, witness_invariant.2.2.2, (runSteps_succ (step_stepOr witness_invariant.2.2.2)).trans (runSteps_zero _), by decide,
    by decide⟩

/-- A run of `SetPriorityRaw 4, 255` with an environment event between its phases. -/
def contract0 : State := begin cfg5 [[encode (.setPriorityRaw 4#32 255#32)], [encode (.enableIRQ 1#32)]]
  [.run 0, .env (.setPending 95), .run 0, .env (.clearPending 95), .run 0]
def contract1 : State := stepOr contract0
def contract2 : State := stepOr contract1
def contract3 : State := stepOr contract2
def contract4 : State := stepOr contract3

theorem contract_inv : Inv contract0 ∧ Inv contract1 ∧ Inv contract2 ∧ Inv contract3 ∧ Inv contract4 := by decide

theorem witness_ContractMakesPrioritySetAtomic : ∃ t, Inv contract0 ∧ contract0.turn = some (.run 0) ∧
    (contract0.requester 0).queue = encode (.setPriorityRaw 4#32 255#32) :: [] ∧ (contract0.requester 0).inflight = none ∧
    requestArgs contract0.cfg (encode (.setPriorityRaw 4#32 255#32)) = some (4#32, 0xF0#8, 0x05FA0700#32) ∧
    step contract0 = .next contract1 ∧ Undisturbed 0 1 contract1 ∧ runSteps 1 contract1 = .next contract2 ∧
    contract2.turn = some (.run 0) ∧ step contract2 = .next contract3 ∧ Undisturbed 0 1 contract3 ∧
    runSteps 1 contract3 = .next contract4 ∧ contract4.turn = some (.run 0) ∧ step contract4 = .next t := by
  obtain ⟨h0, h1, h2, h3, h4⟩ := contract_inv
  refine ⟨_, h0, by decide, by decide, by decide, by decide, step_stepOr h0, ⟨by decide, by decide, fun _ _ => trivial⟩,
    (runSteps_succ (step_stepOr h1)).trans (runSteps_zero _), by decide, step_stepOr h2,
    ⟨by decide, by decide, fun _ _ => trivial⟩, (runSteps_succ (step_stepOr h3)).trans (runSteps_zero _), by decide,
    step_stepOr h4⟩

/-- As V50 after its second step, with ids 0 and 1: both requesters are between `P1` and `P2` on word 0. -/
def overlap : State := { zeroOf cfg5 with
  requesters :=
    [(0, { Requester.idle with queue := [encode (.setPriorityRaw 0#32 1#32)], inflight := some ⟨0, 0, 0x10#8, 0x05FA0700#32, .p2, 0#32⟩ }),
     (1, { Requester.idle with queue := [encode (.setPriorityRaw 1#32 2#32)], inflight := some ⟨0, 1, 0x20#8, 0x05FA0700#32, .p2, 0#32⟩ })] }

theorem witness_InterleavedUpdateIsLost : Inv overlap ∧ overlap.cfg.legal = true ∧ PriWf overlap ∧ (0 : Nat) ≠ 1 ∧
    isPrioSet (.setPriorityRaw 0#32 1#32) = true ∧ isPrioSet (.setPriorityRaw 1#32 2#32) = true ∧
    (overlap.requester 0).inflight = some ⟨0, 0, 0x10#8, 0x05FA0700#32, .p2, 0#32⟩ ∧
    (overlap.requester 1).inflight = some ⟨0, 1, 0x20#8, 0x05FA0700#32, .p2, 0#32⟩ ∧ 0 < priWords overlap.cfg ∧
    (1 : Fin 4) ≠ 0 := by decide

/-- `OneResponsePerRequest` and `EveryRunEnds`: a run of one step, and a state with work left. -/
theorem witness_OneResponsePerRequest : ∃ t, Inv (one (.enableIRQ 95#32)) ∧ runSteps 1 (one (.enableIRQ 95#32)) = .next t ∧
    (one (.enableIRQ 95#32)).work = 4 :=
  ⟨_, witness_invariant.2.1, (runSteps_succ (step_stepOr witness_invariant.2.1)).trans (runSteps_zero _), by decide⟩

/-- `OnlyTheMoverActs`: a turn of a requester with nothing outstanding, which is no turn of requester 1. -/
theorem witness_OnlyTheMoverActs : Inv (begin cfg5 [] [.run 0]) ∧ movingRequest (begin cfg5 [] [.run 0]) = none ∧
    (begin cfg5 [] [.run 0]).turn = some (.run 0) ∧ (begin cfg5 [] [.run 0]).turn ≠ some (.run 1) := by decide

end Sys2Proof.Tests
end

section
/-! SUPPORT. Which step changes `EN`, `PEND` and `SCR` (10_state.md R27, R29, R34). Each register has one lemma that says how a
phase can change it; each statement then finds the phase in the step. -/

namespace Sys2Proof.Proofs

open Sys2Proof Sys2Proof.Machine Sys2Proof.Laws

/-! ### Where in a step the registers change -/

theorem machineStep_of_inv {s t : State} (h : Inv s) (ht : step s = .next t) : MachineStep s t :=
  step_next h.1 (wordsInFile_of_inv h) ht

/-- The step runs a phase of `i`, to which the outstanding request `q` of the moving requester `r` decodes. -/
def RunsPhase (s t : State) (r : Nat) (q : Request) (rest : List Request) (i : Instr) : Prop :=
  s.turn = some (.run r) ∧ (s.requester r).queue = q :: rest ∧ decode q = .ok i ∧ PhaseStep (s.beginRun r) i t

/-- A step keeps every register, unless it is an environment event or a phase of an operation. -/
theorem csrKept_or_env_or_runsPhase {s t : State} (h : MachineStep s t) :
    CsrKept s t ∨ (∃ e, s.turn = some (.env e) ∧ t = applyEnv e { s with schedule := s.schedule.tail }) ∨
      ∃ r q rest i, RunsPhase s t r q rest i := by
  cases h with
  | ended | void | illegal => exact .inl ⟨rfl, rfl, rfl, rfl⟩
  | env e ht => exact .inr (.inl ⟨e, ht, rfl⟩)
  | phase r q rest i _ ht hq hd _ hp => exact .inr (.inr ⟨r, q, rest, i, ht, hq, hd, hp⟩)

/-- An environment event changes `PEND` alone, so a step that changes another register runs a phase. -/
theorem runsPhase_of_changed {s t : State} (h : MachineStep s t) (hc : t.en ≠ s.en ∨ t.pri ≠ s.pri ∨ t.scr ≠ s.scr) :
    ∃ r q rest i, RunsPhase s t r q rest i := by
  rcases csrKept_or_env_or_runsPhase h with ⟨hen, -, hpri, hscr⟩ | ⟨e, -, rfl⟩ | hp
  · simp [hen, hpri, hscr] at hc
  · simp at hc
  · exact hp

/-! ### What a phase does to each register -/

theorem phaseStep_en {s t : State} {i : Instr} (h : PhaseStep s i t) (hc : t.en ≠ s.en) :
    ∃ id, id.toNat < 96 ∧ ((i = .enableIRQ id ∧ t.en = s.en ||| BitVec.twoPow 96 id.toNat) ∨
      (i = .disableIRQ id ∧ t.en = s.en &&& ~~~(BitVec.twoPow 96 id.toNat))) := by
  cases h with
  | enable id hi hid => exact ⟨id, hid, .inl ⟨hi, rfl⟩⟩
  | disable id hi hid => exact ⟨id, hid, .inr ⟨hi, rfl⟩⟩
  | fail | setPend | clearPend | getPend | getPrio | p1 | p2 | p3 => exact absurd rfl hc

theorem phaseStep_pend {s t : State} {i : Instr} (h : PhaseStep s i t) (hc : t.pend ≠ s.pend) :
    ∃ id, id.toNat < 96 ∧ ((i = .setPendingIRQ id ∧ t.pend = s.pend ||| BitVec.twoPow 96 id.toNat) ∨
      (i = .clearPendingIRQ id ∧ t.pend = s.pend &&& ~~~(BitVec.twoPow 96 id.toNat))) := by
  cases h with
  | setPend id hi hid => exact ⟨id, hid, .inl ⟨hi, rfl⟩⟩
  | clearPend id hi hid => exact ⟨id, hid, .inr ⟨hi, rfl⟩⟩
  | fail | enable | disable | getPend | getPrio | p1 | p2 | p3 => exact absurd rfl hc

theorem phaseStep_scr {s t : State} {i : Instr} (h : PhaseStep s i t) (hc : t.scr ≠ s.scr) :
    ∃ p, s.me.inflight = some p ∧ p.next = .p3 ∧ t.scr = p.enc := by
  cases h with
  | p3 p _ hp hn => exact ⟨p, hp, hn, rfl⟩
  | fail | enable | disable | setPend | clearPend | getPend | getPrio | p1 | p2 => exact absurd rfl hc

/-! ### The value that `P3` writes -/

/-- The `SCR` value of a priority set is `ENC` of its operation's mode (42_priority_ops.md R127, R128). -/
theorem prioArgs_enc {cfg : Config} {i : Instr} {id : Word} {byte : Byte} {enc : Word}
    (h : prioArgs cfg i = some (id, byte, enc)) :
    (∃ id p, i = .setPriorityRaw id p ∧ enc = encOf cfg.enc .g0s16) ∨
      ∃ id g sub, i = .setPriorityGrouped id g sub ∧ enc = encOf cfg.enc cfg.mode := by
  cases i <;> simp only [prioArgs, reduceCtorEq, Option.ite_none_right_eq_some, Option.some.injEq, Prod.mk.injEq] at h
  case setPriorityRaw id p => obtain ⟨-, -, -, he⟩ := h; exact .inl ⟨id, p, rfl, he.symm⟩
  case setPriorityGrouped id g sub => obtain ⟨-, -, -, he⟩ := h; exact .inr ⟨id, g, sub, rfl, he.symm⟩

/-- A requester about to run `P3` writes the value that its outstanding request asks for. -/
theorem scrWriteOf_of_inflight {s : State} {r : Nat} {q : Request} {rest : List Request} {p : PrioSet} {id : Word}
    {byte : Byte} {enc : Word} (ht : s.turn = some (.run r)) (hq : (s.requester r).queue = q :: rest)
    (hp : (s.requester r).inflight = some p) (hn : p.next = .p3) (ha : requestArgs s.cfg q = some (id, byte, enc)) :
    scrWriteOf s = some enc := by
  simp [scrWriteOf, movingRequest, ht, hq, hp, hn, ha]

/-! ### `SCR` is never read -/

/-- A phase from a state with another `SCR` differs at most in `SCR`: `P3` writes its own value, all else keeps the other. -/
theorem phaseStep_scr_irrelevant {s t : State} {i : Instr} (h : PhaseStep s i t) (x : Word) :
    ∃ y, PhaseStep { s with scr := x } i { t with scr := y } := by
  cases h with
  | fail k hk hn => exact ⟨x, .fail k hk hn⟩
  | enable id hi hid => exact ⟨x, .enable id hi hid⟩
  | disable id hi hid => exact ⟨x, .disable id hi hid⟩
  | setPend id hi hid => exact ⟨x, .setPend id hi hid⟩
  | clearPend id hi hid => exact ⟨x, .clearPend id hi hid⟩
  | getPend id hi hid => exact ⟨x, .getPend id hi hid⟩
  | getPrio id hi hid => exact ⟨x, .getPrio id hi hid⟩
  | p1 id byte enc hi hn ha => exact ⟨x, .p1 id byte enc hi hn ha⟩
  | p2 p hi hp hn hw => exact ⟨x, .p2 p hi hp hn hw⟩
  | p3 p hi hp hn => exact ⟨p.enc, .p3 p hi hp hn⟩

theorem applyEnv_scr_irrelevant (e : EnvEvent) (s : State) (x : Word) :
    applyEnv e { s with scr := x } = { applyEnv e s with scr := x } := by
  cases e <;> rfl

/-- A step from a state with another `SCR` differs at most in `SCR`. -/
theorem step_scr_irrelevant {s t : State} (hl : s.cfg.legal = true) (h : MachineStep s t) (x : Word) :
    ∃ y, step { s with scr := x } = .next { t with scr := y } := by
  have hl' : ({ s with scr := x } : State).cfg.legal = true := hl
  cases h with
  | ended ht => exact ⟨x, step_of_ended hl' ht⟩
  | env e ht =>
    exact ⟨x, (step_of_env hl' ht).trans
      (congrArg _ (applyEnv_scr_irrelevant e { s with schedule := s.schedule.tail } x))⟩
  | void r ht hq => exact ⟨x, step_of_void hl' ht hq⟩
  | illegal r q rest ht hq hd => exact ⟨x, step_of_illegal hl' ht hq hd⟩
  | phase r q rest i t ht hq hd _ hp =>
    obtain ⟨y, hy⟩ := phaseStep_scr_irrelevant hp x
    exact ⟨y, (step_of_decoded hl' ht hq hd).trans (exec_of_phaseStep (s := { s.beginRun r with scr := x }) hl hy)⟩

/-! ### The statements -/

/-- Settles O47: the only phases that change `EN` are those of the two operations. -/
theorem onlyEnableAndDisableChangeEnables : Obligations.OnlyEnableAndDisableChangeEnables := by
  intro s t h ht hc
  obtain ⟨r, q, rest, i, htr, hq, hd, hp⟩ := runsPhase_of_changed (machineStep_of_inv h ht) (.inl hc)
  obtain ⟨id, hid, ⟨rfl, hen⟩ | ⟨rfl, hen⟩⟩ := phaseStep_en hp hc
  · exact ⟨r, q, rest, id, htr, hq, hid, .inl ⟨hd, hen⟩⟩
  · exact ⟨r, q, rest, id, htr, hq, hid, .inr ⟨hd, hen⟩⟩

/-- Settles O48: `PEND` changes in an environment event, or in a phase of one of the two operations. -/
theorem onlyPendingAgentsChangePending : Obligations.OnlyPendingAgentsChangePending := by
  intro s t h ht hc
  rcases csrKept_or_env_or_runsPhase (machineStep_of_inv h ht) with
    ⟨-, hpend, -, -⟩ | ⟨e, htr, rfl⟩ | ⟨r, q, rest, i, htr, hq, hd, hp⟩
  · exact absurd hpend hc
  · left
    cases e with
    | setPending k => exact ⟨k, .inl ⟨htr, rfl⟩⟩
    | clearPending k => exact ⟨k, .inr ⟨htr, rfl⟩⟩
  · right
    obtain ⟨id, hid, ⟨rfl, hpend⟩ | ⟨rfl, hpend⟩⟩ := phaseStep_pend hp hc
    · exact ⟨r, q, rest, id, htr, hq, hid, .inl ⟨hd, hpend⟩⟩
    · exact ⟨r, q, rest, id, htr, hq, hid, .inr ⟨hd, hpend⟩⟩

/-- The write half of R34. The invariant ties the record's value, which `P3` writes, to the outstanding request. -/
theorem scr_changed_only_by_p3 {s t : State} (h : Inv s) (ht : step s = .next t) (hc : t.scr ≠ s.scr) :
    ∃ r q rest, s.turn = some (.run r) ∧ (s.requester r).queue = q :: rest ∧ scrWriteOf s = some t.scr ∧
      ((∃ id p, decode q = .ok (.setPriorityRaw id p) ∧ t.scr = encOf s.cfg.enc .g0s16) ∨
       (∃ id g sub, decode q = .ok (.setPriorityGrouped id g sub) ∧ t.scr = encOf s.cfg.enc s.cfg.mode)) := by
  obtain ⟨r, q, rest, _, htr, hq, -, hph⟩ := runsPhase_of_changed (machineStep_of_inv h ht) (.inr (.inr hc))
  obtain ⟨p, hp, hn, hscr⟩ := phaseStep_scr hph hc
  obtain ⟨q', rest', id, byte, enc, hq', ha, -, -, -, henc⟩ := inflight_request (inflightOK_lookup h r) hp
  obtain ⟨rfl, rfl⟩ := List.cons.inj (hq.symm.trans hq')
  obtain ⟨i, hd, hi, -⟩ := requestArgs_some ha
  rw [hscr, henc]
  refine ⟨r, q, rest, htr, hq, scrWriteOf_of_inflight htr hq hp hn ha, ?_⟩
  rcases prioArgs_enc hi with ⟨id, v, rfl, he⟩ | ⟨id, g, sub, rfl, he⟩
  · exact .inl ⟨id, v, hd, he⟩
  · exact .inr ⟨id, g, sub, hd, he⟩

/-- Settles O49: the write half, and the read half from the step's indifference to `SCR`. -/
theorem scrWrittenOnlyAndNeverRead : Obligations.ScrWrittenOnlyAndNeverRead := by
  refine ⟨fun s t h ht hc => scr_changed_only_by_p3 h ht hc, fun s t x h ht => ?_⟩
  obtain ⟨y, hy⟩ := step_scr_irrelevant h.1 (machineStep_of_inv h ht) x
  exact ⟨_, hy, rfl⟩

end Sys2Proof.Proofs
end

section
/-! SUPPORT. The writes of the registers and the environment events (20_memory.md R53, R58). -/

namespace Sys2Proof.Proofs

open Sys2Proof Sys2Proof.Machine Sys2Proof.Laws

/-! ### A write of a bit-register view -/

/-- One word replaced, and the frame: the form in which R53 speaks of the views of `EN` and `PEND`. -/
theorem lineWord_setLineWord_frame (v : Lines) {b : Nat} (hb : b < 3) (x : Word) :
    lineWord (setLineWord v b x) b = x ∧ ∀ b', b' < 3 → b' ≠ b → lineWord (setLineWord v b x) b' = lineWord v b' :=
  ⟨by rw [lineWord_setLineWord v hb hb, if_pos rfl],
    fun b' hb' hne => by rw [lineWord_setLineWord v hb hb', if_neg hne]⟩

/-! ### An environment event at the head of the schedule -/

theorem turn_of_schedule_cons {s : State} {u : Turn} {rest : List Turn} (h : s.schedule = u :: rest) :
    s.turn = some u := by
  simp only [State.turn, h]

theorem step_of_env_cons {s : State} {e : EnvEvent} {rest : List Turn} (hl : s.cfg.legal = true)
    (h : s.schedule = .env e :: rest) : step s = .next (applyEnv e { s with schedule := rest }) := by
  rw [step_of_env hl (turn_of_schedule_cons h), h, List.tail_cons]

/-! ### The statements -/

/-- Settles O10: under a legal configuration each address reaches its own register, whose write replaces one word of `EN`,
`PEND` or the priority file, or `SCR`. -/
theorem csrWriteTable : Obligations.CsrWriteTable := by
  intro s v hl hp
  refine ⟨fun b hb => ⟨?iser, ?icer, ?ispr, ?icpr⟩, fun w hw => ?ipr, csrWrite_scr hl v⟩
  case iser =>
    exact ⟨_, csrWrite_addrOf hl (c := .iser b) (decide_eq_true hb) v, lineWord_setLineWord_frame s.en hb _⟩
  case icer =>
    exact ⟨_, csrWrite_addrOf hl (c := .icer b) (decide_eq_true hb) v, lineWord_setLineWord_frame s.en hb _⟩
  case ispr =>
    exact ⟨_, csrWrite_addrOf hl (c := .ispr b) (decide_eq_true hb) v, lineWord_setLineWord_frame s.pend hb _⟩
  case icpr =>
    exact ⟨_, csrWrite_addrOf hl (c := .icpr b) (decide_eq_true hb) v, lineWord_setLineWord_frame s.pend hb _⟩
  case ipr =>
    exact ⟨_, csrWrite_ipr hl hw v, rfl, priWord_set hp hw _, fun w' hne => priWord_set_other hp hw _ hne⟩

/-- Settles O13: the step applies the event, which sets or clears the one bit of `PEND` at its line. -/
theorem environmentEvent : Obligations.EnvironmentEvent := by
  intro s rest i hl
  constructor
  · intro hs
    exact ⟨_, step_of_env_cons hl hs, fun j _ => getLsbD_set s.pend i.isLt j⟩
  · intro hs
    exact ⟨_, step_of_env_cons hl hs, fun j hj => getLsbD_clear s.pend i.isLt hj⟩

end Sys2Proof.Proofs
end

section
/-! SUPPORT. The request as words and fields (30_encoding.md R65, R71, R72). A request decodes as its used fields alone do,
and a phase never looks at the request it runs for: a response drops it, the other phases carry it along unread. -/

namespace Sys2Proof.Proofs

open Sys2Proof Sys2Proof.Machine Sys2Proof.Laws

/-! ### The four words (R65) -/

/-- Each word stands above the ones before it, so a slice skips those and then is its word. -/
theorem bits_words (q : Request) : q.bits.extractLsb' 0 32 = q.ctrl ∧ q.bits.extractLsb' 32 32 = q.id ∧
    q.bits.extractLsb' 64 32 = q.a ∧ q.bits.extractLsb' 96 32 = q.b := by
  refine ⟨BitVec.extractLsb'_append_eq_right, ?id, ?a, ?b⟩ <;>
    rw [Request.bits, BitVec.extractLsb'_append_eq_of_le (by omega)]
  case id => exact BitVec.extractLsb'_append_eq_right
  case a => exact (BitVec.extractLsb'_append_eq_of_le (by omega)).trans BitVec.extractLsb'_append_eq_right
  case b => exact (BitVec.extractLsb'_append_eq_of_le (by omega)).trans BitVec.extractLsb'_append_eq_left

theorem ofBits_bits (q : Request) : Request.ofBits q.bits = q := by
  obtain ⟨hctrl, hid, ha, hb⟩ := bits_words q
  rw [Request.ofBits, hctrl, hid, ha, hb]

theorem bits_ofBits (v : BitVec 128) : (Request.ofBits v).bits = v := by
  simp only [Request.ofBits, Request.bits]
  rw [BitVec.extractLsb'_append_extractLsb'_eq_extractLsb' (by rfl),
    BitVec.extractLsb'_append_extractLsb'_eq_extractLsb' (by rfl),
    BitVec.extractLsb'_append_extractLsb'_eq_extractLsb' (by rfl)]
  exact BitVec.extractLsb'_eq_self

/-! ### The reserved field (R72) -/

theorem decode_of_rsv_zero {q : Request} (h : q.ctrl.extractLsb' 4 28 = 0#28) : decode q = .ok q.operation :=
  if_pos (beq_iff_eq.2 h)

theorem decode_of_rsv_ne_zero {q : Request} (h : q.ctrl.extractLsb' 4 28 ≠ 0#28) :
    decode q = .error .reservedBits :=
  if_neg fun hc => h (beq_iff_eq.1 hc)

/-! ### The used fields decide what a request decodes to (R67, R71) -/

/-- Setting the unused fields to zero touches no bit of `CTRL` but `OV`. -/
theorem keepUsed_ctrl_bit (q : Request) {i : Nat} (hi : i ≠ 3) :
    (keepUsed q).ctrl.getLsbD i = q.ctrl.getLsbD i := by
  have hmask : ∀ j : Fin 32, j.val ≠ 3 → (0xFFFFFFFF#32).getLsbD j = true ∧ (0xFFFFFFF7#32).getLsbD j = true := by
    decide
  by_cases h32 : i < 32
  · obtain ⟨hall, hnoOV⟩ := hmask ⟨i, h32⟩ hi
    simp only [keepUsed, BitVec.getLsbD_and]
    split <;> simp only [hall, hnoOV, Bool.and_true]
  · rw [BitVec.getLsbD_of_ge _ _ (not_lt.1 h32), BitVec.getLsbD_of_ge _ _ (not_lt.1 h32)]

theorem keepUsed_ctrlOK (q : Request) : (keepUsed q).ctrlOK = q.ctrlOK := by
  rw [Bool.eq_iff_iff, ctrlOK_iff, ctrlOK_iff]
  exact forall₂_congr fun i hi => by rw [keepUsed_ctrl_bit q (by omega)]

theorem keepUsed_ov {q : Request} (h : usesOV (q.ctrl.extractLsb' 0 3) = true) : (keepUsed q).ov = q.ov := by
  simp [keepUsed, Request.ov, h]

theorem keepUsed_a {q : Request} (h : usesA (q.ctrl.extractLsb' 0 3) = true) : (keepUsed q).a = q.a :=
  if_pos h

theorem keepUsed_b {q : Request} (h : usesB (q.ctrl.extractLsb' 0 3) = true) : (keepUsed q).b = q.b :=
  if_pos h

/-- The operation that `OP` names takes its operands from the fields marked as used in R67. -/
theorem keepUsed_operation (q : Request) : (keepUsed q).operation = q.operation := by
  have hid : (keepUsed q).id = q.id := rfl
  cases h2 : q.ctrl.getLsbD 2 <;> cases h1 : q.ctrl.getLsbD 1 <;> cases h0 : q.ctrl.getLsbD 0 <;>
    have hop := op_bits q.ctrl _ _ _ h2 h1 h0 <;>
    simp only [Request.operation, keepUsed_ctrl_bit q (show 0 ≠ 3 by omega), keepUsed_ctrl_bit q (show 1 ≠ 3 by omega),
      keepUsed_ctrl_bit q (show 2 ≠ 3 by omega), h2, h1, h0, hid]
  case true.false.false | true.true.true => rw [keepUsed_ov (by rw [hop]; rfl)]
  case true.false.true => rw [keepUsed_a (by rw [hop]; rfl)]
  case true.true.false => rw [keepUsed_a (by rw [hop]; rfl), keepUsed_b (by rw [hop]; rfl)]

theorem decode_keepUsed (q : Request) : decode (keepUsed q) = decode q := by
  simp only [decode, keepUsed_ctrlOK, keepUsed_operation]

theorem decode_of_sameUsed {q q' : Request} (h : SameUsed q q') : decode q' = decode q := by
  rw [← decode_keepUsed q', ← h, decode_keepUsed]

/-! ### A requester with other requests in its queue -/

/-- The state in which requester `r` has the requests `l` remaining. -/
def withQueue (r : Nat) (l : List Request) (s : State) : State :=
  s.setRequester r { s.requester r with queue := l }

theorem ne_idle_of_queue_cons {p : Requester} {q : Request} {rest : List Request} (h : p.queue = q :: rest) :
    p ≠ Requester.idle := by
  rintro rfl
  cases h

theorem withQueue_requester_same (r : Nat) (q : Request) (rest : List Request) (s : State) :
    (withQueue r (q :: rest) s).requester r = { s.requester r with queue := q :: rest } :=
  setRequester_requester_same s r (ne_idle_of_queue_cons rfl)

/-- Of two writes of one requester the second stays. -/
theorem insertReq_insertReq {p : Requester} (hp : p ≠ Requester.idle) (r : Nat) (p' : Requester)
    (t : List (Nat × Requester)) : insertReq r p' (insertReq r p t) = insertReq r p' t := by
  induction t with
  | nil => simp [insertReq, hp]
  | cons e rest ih =>
    obtain ⟨k, o⟩ := e
    by_cases hlt : r < k
    · simp [insertReq, hp, hlt]
    · by_cases heq : r = k
      · simp [insertReq, hp, heq]
      · simp [insertReq, hlt, heq, ih]

theorem setRequester_setRequester {p : Requester} (hp : p ≠ Requester.idle) (s : State) (r : Nat) (p' : Requester) :
    (s.setRequester r p).setRequester r p' = s.setRequester r p' := by
  simp only [State.setRequester, insertReq_insertReq hp]

/-- A requester that is the lowest-numbered active one stays so under other requests of its own. -/
theorem firstActive_insertReq {t : List (Nat × Requester)} (ht : t.Pairwise fun e e' => e.1 < e'.1) {r : Nat}
    (h : firstActive t = some r) {p : Requester} (hp : p.queue ≠ []) : firstActive (insertReq r p t) = some r := by
  have hidle : p ≠ Requester.idle := by rintro rfl; exact hp rfl
  induction t with
  | nil => cases h
  | cons e rest ih =>
    obtain ⟨k, o⟩ := e
    obtain ⟨hk, hrest⟩ := List.pairwise_cons.1 ht
    by_cases ho : o.queue.isEmpty = true
    · have hr : firstActive rest = some r := by simpa only [firstActive, ho, if_true] using h
      obtain ⟨o', hmem, -⟩ := firstActive_some hr
      have hkr : k < r := hk _ hmem
      simp only [insertReq, if_neg hkr.not_gt, if_neg hkr.ne', firstActive, ho, if_true, ih hrest hr]
    · obtain rfl : k = r := by simpa only [firstActive, ho, Bool.false_eq_true, if_false, Option.some.injEq] using h
      simp [insertReq, hidle, firstActive, hp]

theorem turn_withQueue {s : State} (hw : TableWf s.requesters) {r : Nat} (h : s.turn = some (.run r)) (q : Request)
    (rest : List Request) : (withQueue r (q :: rest) s).turn = some (.run r) := by
  cases hs : s.schedule with
  | cons u l =>
    rw [turn_of_schedule_cons hs] at h
    exact (turn_of_schedule_cons (s := withQueue r (q :: rest) s) hs).trans h
  | nil =>
    have hf : firstActive s.requesters = some r := by simpa [State.turn, hs] using h
    have hf' : firstActive (withQueue r (q :: rest) s).requesters = some r :=
      firstActive_insertReq hw.1 hf (List.cons_ne_nil q rest)
    have hs' : (withQueue r (q :: rest) s).schedule = [] := hs
    simp only [State.turn, hs', hf', Option.map_some]

/-! ### A phase with another request outstanding -/

section
variable {s : State} {q : Request} {rest : List Request} (hq : s.me.queue = q :: rest) (q' : Request)

theorem me_withQueue : (withQueue s.cur (q' :: rest) s).me = { s.me with queue := q' :: rest } :=
  withQueue_requester_same s.cur q' rest s

/-- A phase without a response carries the outstanding request along. -/
theorem setInflight_withQueue (p : PrioSet) :
    setInflight (some p) (withQueue s.cur (q' :: rest) s) = withQueue s.cur (q' :: rest) (setInflight (some p) s) := by
  have hp : ({ s.me with inflight := some p } : Requester) ≠ Requester.idle := fun h => by
    cases congrArg Requester.inflight h
  calc setInflight (some p) (withQueue s.cur (q' :: rest) s)
    _ = s.setRequester s.cur { s.me with queue := q' :: rest, inflight := some p } := by
      rw [setInflight, me_withQueue]
      exact setRequester_setRequester (ne_idle_of_queue_cons rfl) s s.cur _
    _ = withQueue s.cur (q' :: rest) (setInflight (some p) s) := by
      rw [withQueue, setInflight_requester_cur]
      exact (setRequester_setRequester hp s s.cur _).symm

include hq

/-- A response drops the outstanding request, whichever it was. -/
theorem deliver_withQueue (resp : Response) (x : Option PrioSet) :
    deliver resp x (withQueue s.cur (q' :: rest) s) = deliver resp x s := by
  have hrec : (withQueue s.cur (q' :: rest) s).me.receive resp x = s.me.receive resp x := by
    simp only [me_withQueue, Requester.receive, hq, List.tail_cons]
  rw [deliver, hrec]
  exact setRequester_setRequester (ne_idle_of_queue_cons rfl) s s.cur _

theorem respondOk_withQueue : respondOk (withQueue s.cur (q' :: rest) s) = respondOk s := by
  simp only [respondOk, deliver_withQueue hq, me_withQueue]; rfl

theorem respondOkClearing_withQueue : respondOkClearing (withQueue s.cur (q' :: rest) s) = respondOkClearing s := by
  simp only [respondOkClearing, deliver_withQueue hq]; rfl

theorem respondData_withQueue (v : Word) : respondData v (withQueue s.cur (q' :: rest) s) = respondData v s := by
  simp only [respondData, deliver_withQueue hq, me_withQueue]

theorem failWith_withQueue (k : ErrKind) : failWith k (withQueue s.cur (q' :: rest) s) = failWith k s := by
  simp only [failWith, respondNotOk, deliver_withQueue hq, me_withQueue]; rfl

end

/-- The two states are the same, but that the request `q` of requester `r`, where it is still outstanding in `t`, is `q'` in
`t'`. -/
def SameButOutstanding (r : Nat) (q q' : Request) (rest : List Request) (t t' : State) : Prop :=
  t' = t ∨ (t.requester r).queue = q :: rest ∧ t' = withQueue r (q' :: rest) t

theorem sameButOutstanding_setInflight {s : State} {q : Request} {rest : List Request} (hq : s.me.queue = q :: rest)
    (q' : Request) (p : PrioSet) :
    SameButOutstanding s.cur q q' rest (setInflight (some p) s) (setInflight (some p) (withQueue s.cur (q' :: rest) s)) :=
  .inr ⟨by rw [setInflight_requester_cur]; exact hq, setInflight_withQueue q' p⟩

/-- A phase of the same operation, with another request outstanding, does the same. -/
theorem phaseStep_withQueue {s t : State} {i : Instr} (h : PhaseStep s i t) {q : Request} {rest : List Request}
    (hq : s.me.queue = q :: rest) (q' : Request) :
    ∃ t', PhaseStep (withQueue s.cur (q' :: rest) s) i t' ∧ SameButOutstanding s.cur q q' rest t t' := by
  have hme : (withQueue s.cur (q' :: rest) s).me.inflight = s.me.inflight := by rw [me_withQueue]
  cases h with
  | fail k hk hn => exact ⟨_, .fail k hk (hme ▸ hn), .inl (failWith_withQueue hq q' k)⟩
  | enable id hi hid =>
    exact ⟨_, .enable id hi hid,
      .inl (respondOk_withQueue (s := { s with en := s.en ||| BitVec.twoPow 96 id.toNat }) hq q')⟩
  | disable id hi hid =>
    exact ⟨_, .disable id hi hid,
      .inl (respondOk_withQueue (s := { s with en := s.en &&& ~~~(BitVec.twoPow 96 id.toNat) }) hq q')⟩
  | setPend id hi hid =>
    exact ⟨_, .setPend id hi hid,
      .inl (respondOk_withQueue (s := { s with pend := s.pend ||| BitVec.twoPow 96 id.toNat }) hq q')⟩
  | clearPend id hi hid =>
    exact ⟨_, .clearPend id hi hid,
      .inl (respondOk_withQueue (s := { s with pend := s.pend &&& ~~~(BitVec.twoPow 96 id.toNat) }) hq q')⟩
  | getPend id hi hid => exact ⟨_, .getPend id hi hid, .inl (respondData_withQueue hq q' _)⟩
  | getPrio id hi hid => exact ⟨_, .getPrio id hi hid, .inl (respondData_withQueue hq q' _)⟩
  | p1 id byte enc hi hn ha => exact ⟨_, .p1 id byte enc hi (hme.trans hn) ha, sameButOutstanding_setInflight hq q' _⟩
  | p2 p hi hp hn hw =>
    exact ⟨_, .p2 p hi (hme.trans hp) hn hw, sameButOutstanding_setInflight
      (s := { s with pri := setPriWord s.pri p.w (mergeLane p.c p.lane p.byte &&& 0xF0F0F0F0#32) }) hq q' _⟩
  | p3 p hi hp hn =>
    exact ⟨_, .p3 p hi (hme.trans hp) hn, .inl (respondOkClearing_withQueue (s := { s with scr := p.enc }) hq q')⟩

/-- A step with another outstanding request that decodes to the same does the same. -/
theorem step_withQueue {s t : State} {r : Nat} {q q' : Request} {rest : List Request} (h : Inv s)
    (htr : s.turn = some (.run r)) (hq : (s.requester r).queue = q :: rest) (hd : decode q' = decode q)
    (ht : step s = .next t) :
    ∃ t', step (withQueue r (q' :: rest) s) = .next t' ∧ SameButOutstanding r q q' rest t t' := by
  have htr' := turn_withQueue h.2.2.1 htr q' rest
  have hq' : ((withQueue r (q' :: rest) s).requester r).queue = q' :: rest := by rw [withQueue_requester_same]
  have hl' : (withQueue r (q' :: rest) s).cfg.legal = true := h.1
  cases hi : decode q with
  | error e =>
    cases e
    obtain rfl := Host.Outcome.next.inj (ht.symm.trans (step_of_illegal h.1 htr hq hi))
    exact ⟨_, step_of_illegal hl' htr' hq' (hd.trans hi),
      .inl (failWith_withQueue (s := s.beginRun r) hq q' .reserved)⟩
  | ok i =>
    rw [step_of_decoded h.1 htr hq hi] at ht
    have hp : PhaseStep (s.beginRun r) i t :=
      exec_next (s := s.beginRun r) h.1 (fun p hp => wordsInFile_of_inv h r p hp) ht
    obtain ⟨t', hp', hs⟩ := phaseStep_withQueue hp hq q'
    have he' := exec_of_phaseStep (s := (withQueue r (q' :: rest) s).beginRun r) hl' hp'
    exact ⟨t', (step_of_decoded hl' htr' hq' (hd.trans hi)).trans he', hs⟩

/-- What such states agree on: the registers, every other requester, and of requester `r` all but one request. -/
theorem sameButOutstanding_agree {r : Nat} {q q' : Request} {rest : List Request} {t t' : State}
    (h : SameButOutstanding r q q' rest t t') :
    CsrKept t t' ∧ (t'.requester r).responses = (t.requester r).responses ∧
      (t'.requester r).out = (t.requester r).out ∧ (t'.requester r).inflight = (t.requester r).inflight ∧
      (t'.requester r).queue.length = (t.requester r).queue.length ∧
      ∀ r', r' ≠ r → t'.requester r' = t.requester r' := by
  rcases h with rfl | ⟨hq, rfl⟩
  · exact ⟨⟨rfl, rfl, rfl, rfl⟩, rfl, rfl, rfl, rfl, fun _ _ => rfl⟩
  · rw [withQueue_requester_same, hq]
    exact ⟨⟨rfl, rfl, rfl, rfl⟩, rfl, rfl, rfl, rfl, fun _ hr => setRequester_requester_other t hr _⟩

/-! ### The statements -/

/-- Settles O6: the two requests decode to the same, and the step sees no more of a request than what it decodes to. -/
theorem unusedFieldsIgnored : Obligations.UnusedFieldsIgnored := by
  intro s t r q q' rest h htr hq hsame ht
  obtain ⟨t', ht', hs⟩ := step_withQueue h htr hq (decode_of_sameUsed hsame) ht
  exact ⟨t', ht', sameButOutstanding_agree hs⟩

/-- Settles O39: a zero reserved field leaves the operation that `OP` names; a nonzero one makes the step `FAIL`. -/
theorem illegalRequestAnsweredNotOk : Obligations.IllegalRequestAnsweredNotOk := by
  refine ⟨fun q h => ⟨_, decode_of_rsv_zero h⟩, fun s r q rest hl htr hq hrsv => ?_⟩
  exact ⟨_, step_of_illegal hl htr hq (decode_of_rsv_ne_zero hrsv), failed_failWith (s.beginRun r) .reserved⟩

/-- Settles O4: the slices of the concatenation are the words, and the concatenation of the slices is the whole. -/
theorem requestIsFourWords : Obligations.RequestIsFourWords :=
  ⟨fun q => ⟨ofBits_bits q, bits_words q⟩, bits_ofBits⟩

end Sys2Proof.Proofs
end

section
/-! SUPPORT. The bank and the bit of an interrupt id as bit fields of the id (40_dispatcher.md R83). -/

namespace Sys2Proof.Proofs

open Sys2Proof Sys2Proof.Machine Sys2Proof.Laws

/-- `bitpos(ID)` is the low five bits of every id, in range or not. -/
theorem bitpos_eq_extractLsb' (id : Word) : bitpos id = (id.extractLsb' 0 5).toNat := by
  rw [BitVec.extractLsb'_toNat, Nat.shiftRight_zero]
  rfl

/-- Bits 6:5 are the bank index reduced mod 4, so they are all of it once the bank is one of the three that exist. -/
theorem bank_eq_extractLsb' {id : Word} (h : id.toNat < 96) : bank id = (id.extractLsb' 5 2).toNat := by
  have hb : bank id < 2 ^ 2 := (bank_lt h).trans (by decide)
  rw [BitVec.extractLsb'_toNat, Nat.shiftRight_eq_div_pow]
  exact (Nat.mod_eq_of_lt hb).symm

/-! ### The statement -/

/-- Settles O18: the formulas are the indexer's definitions, the mask has the id's bit alone, and below 96 the quotient and
the remainder by 32 are the fields `ID[6:5]` and `ID[4:0]`. -/
theorem bankDecomposition : Obligations.BankDecomposition := by
  refine fun id => ⟨rfl, rfl, rfl, getLsbD_bitmask id, fun h => ?_⟩
  exact ⟨bank_eq_extractLsb' h, Nat.le_of_lt_succ (bank_lt h), bitpos_eq_extractLsb' id⟩

end Sys2Proof.Proofs
end

section
/-! SUPPORT. The bank operations (41_bank_ops.md R100 to R104): the frame of a write of one line's bit, the answer that reads
one line's bit, and the answer to a request whose check fails. -/

namespace Sys2Proof.Proofs

open Sys2Proof Sys2Proof.Machine Sys2Proof.Laws

/-! ### A check that fails (R82) -/

theorem idBankOK_false {id : Word} (h : 96 ≤ id.toNat) : ¬ idBankOK id = true :=
  fun hid => absurd ((idBankOK_iff id).1 hid) (not_lt.2 h)

/-- A request that is no priority set is answered not-ok with the kind of its first failing check. -/
theorem exec_failed_of_firstFailure {s : State} {i : Instr} {k : ErrKind} (hk : firstFailure s.cfg i = some k)
    (hi : isPrioSet i = false) : ∃ t, exec i s = .next t ∧ Failed s t k :=
  ⟨_, exec_of_firstFailure hk (.inr hi), failed_failWith s k⟩

/-! ### The frame of a write answered ok -/

theorem csrKept_respondOk (s : State) : CsrKept s (respondOk s) :=
  ⟨rfl, rfl, rfl, rfl⟩

/-- After a change of the word `b` of `EN`, answered ok, everything but that word's two views is as before. -/
theorem respondOk_en_frame (s : State) {b : Nat} {v : Lines}
    (hv : ∀ b', b' < 3 → b' ≠ b → lineWord v b' = lineWord s.en b') {t : State} (ht : t = respondOk { s with en := v }) :
    t.pend = s.pend ∧ t.pri = s.pri ∧ t.scr = s.scr ∧ ReadsKept s t [iserAddr s.cfg b, icerAddr s.cfg b] ∧
      SetupKept s t ∧ AnsweredOk s t s.me.inflight := by
  subst ht
  exact ⟨rfl, rfl, rfl, readsKept_en rfl rfl rfl hv, ⟨rfl, rfl, rfl⟩, answeredOk_respondOk { s with en := v }⟩

/-- After a change of the word `b` of `PEND`, answered ok, everything but that word's two views is as before. -/
theorem respondOk_pend_frame (s : State) {b : Nat} {v : Lines}
    (hv : ∀ b', b' < 3 → b' ≠ b → lineWord v b' = lineWord s.pend b') {t : State}
    (ht : t = respondOk { s with pend := v }) :
    t.en = s.en ∧ t.pri = s.pri ∧ t.scr = s.scr ∧ ReadsKept s t [isprAddr s.cfg b, icprAddr s.cfg b] ∧
      SetupKept s t ∧ AnsweredOk s t s.me.inflight := by
  subst ht
  exact ⟨rfl, rfl, rfl, readsKept_pend rfl rfl rfl hv, ⟨rfl, rfl, rfl⟩, answeredOk_respondOk { s with pend := v }⟩

/-! ### The read of a pending bit (R104) -/

/-- `ICPR` reads the same word of `PEND` as `ISPR` (20_memory.md R52). -/
theorem csrRead_icpr {s : State} (h : s.cfg.legal = true) {id : Word} (hid : id.toNat < 96) (d : Word) :
    csrRead s (icprAddr s.cfg (bank id)) d = some (lineWord s.pend (bank id)) :=
  csrRead_addrOf h (c := .icpr (bank id)) (decide_eq_true (bank_lt hid)) d

theorem setWidth_ofBool (b : Bool) : (BitVec.ofBool b).setWidth 32 = if b then 1#32 else 0#32 := by
  cases b <;> rfl

/-! ### The statements -/

/-- Settles O22: the bit mask written to `ISER` sets the id's own bit, and an id out of range fails the only check. -/
theorem enableIRQSetsItsBit : Obligations.EnableIRQSetsItsBit := by
  refine ⟨fun q h => decode_of_mask q 0b000#3 h, fun s id hl hid => ?sets, fun s id hid => ?fails⟩
  case sets =>
    exact ⟨_, _, exec_enableIRQ hl hid, csrWrite_iser hl hid, csrKept_respondOk _, fun i _ => getLsbD_set s.en hid i,
      respondOk_en_frame s (fun _ hb hne => lineWord_set_other s.en hid hb hne) rfl⟩
  case fails => exact exec_failed_of_firstFailure (if_neg (idBankOK_false hid)) rfl

/-- Settles O23: the bit mask written to `ICER` clears the id's own bit, and an id out of range fails the only check. -/
theorem disableIRQClearsItsBit : Obligations.DisableIRQClearsItsBit := by
  refine ⟨fun q h => decode_of_mask q 0b001#3 h, fun s id hl hid => ?clears, fun s id hid => ?fails⟩
  case clears =>
    exact ⟨_, _, exec_disableIRQ hl hid, csrWrite_icer hl hid, csrKept_respondOk _, fun _ hi => getLsbD_clear s.en hid hi,
      respondOk_en_frame s (fun _ hb hne => lineWord_clear_other s.en hid hb hne) rfl⟩
  case fails => exact exec_failed_of_firstFailure (if_neg (idBankOK_false hid)) rfl

/-- Settles O24: the bit mask written to `ISPR` sets the id's own bit, and an id out of range fails the only check. -/
theorem setPendingIRQSetsItsBit : Obligations.SetPendingIRQSetsItsBit := by
  refine ⟨fun q h => decode_of_mask q 0b010#3 h, fun s id hl hid => ?sets, fun s id hid => ?fails⟩
  case sets =>
    exact ⟨_, _, exec_setPendingIRQ hl hid, csrWrite_ispr hl hid, csrKept_respondOk _,
      fun i _ => getLsbD_set s.pend hid i,
      respondOk_pend_frame s (fun _ hb hne => lineWord_set_other s.pend hid hb hne) rfl⟩
  case fails => exact exec_failed_of_firstFailure (if_neg (idBankOK_false hid)) rfl

/-- Settles O25: the bit mask written to `ICPR` clears the id's own bit, and an id out of range fails the only check. -/
theorem clearPendingIRQClearsItsBit : Obligations.ClearPendingIRQClearsItsBit := by
  refine ⟨fun q h => decode_of_mask q 0b011#3 h, fun s id hl hid => ?clears, fun s id hid => ?fails⟩
  case clears =>
    exact ⟨_, _, exec_clearPendingIRQ hl hid, csrWrite_icpr hl hid, csrKept_respondOk _,
      fun _ hi => getLsbD_clear s.pend hid hi,
      respondOk_pend_frame s (fun _ hb hne => lineWord_clear_other s.pend hid hb hne) rfl⟩
  case fails => exact exec_failed_of_firstFailure (if_neg (idBankOK_false hid)) rfl

/-- Settles O26: the word read at either view holds the id's bit at `bitpos`, and the answer is that bit; the two checks
fail in the order of R80. -/
theorem getPendingIRQReadsItsBit : Obligations.GetPendingIRQReadsItsBit := by
  refine ⟨fun q h => decode_of_mask q 0b100#3 h, fun s id hl hid => ?reads, fun s id ov hid => ?idRange,
    fun s id hid => ?nullOut⟩
  case reads =>
    have hexec := exec_getPendingIRQ hl hid
    rw [setWidth_ofBool] at hexec
    exact ⟨_, _, hexec, fun d => ⟨csrRead_ispr hl hid d, csrRead_icpr hl hid d⟩, lineWord_own_bit s.pend id,
      answeredData_respondData s _, ⟨rfl, rfl, rfl, rfl⟩, readsKept_all rfl rfl rfl rfl, ⟨rfl, rfl, rfl⟩⟩
  case idRange => exact exec_failed_of_firstFailure (if_neg (idBankOK_false hid)) rfl
  case nullOut => exact exec_failed_of_firstFailure (if_pos ((idBankOK_iff id).2 hid)) rfl

end Sys2Proof.Proofs
end

section
/-! SUPPORT. Every step keeps the invariant (10_state.md R31, R32, R33, R36), and with it `SCR` follows the phases `P3`
of a run (42_priority_ops.md R132). Of what the invariant speaks of, a phase replaces one requester and at most the
priority file, so each of its cases owes the same few facts: about the new file, and about the in-flight record that the
requester is left with. -/

namespace Sys2Proof.Proofs

open Sys2Proof Sys2Proof.Machine Sys2Proof.Laws

/-! ### What a change of one requester owes to the invariant -/

/-- The file's half of the invariant: its form, and the bytes that no operation reaches. -/
def FileKept (s t : State) : Prop :=
  PriWf t ∧ ∀ k, reachableByte s.cfg k = false → t.priByte k = s.priByte k

theorem fileKept_of_pri {s t : State} (h : Inv s) (hc : t.cfg = s.cfg) (hp : t.pri = s.pri) : FileKept s t := by
  exact ⟨by simpa only [PriWf, hc, hp] using h.2.1, fun k _ => by simp only [State.priByte, hp]⟩

/-- The invariant after one requester of the table and the priority file are replaced. -/
theorem inv_of_insertReq {s t : State} (h : Inv s) (hc : t.cfg = s.cfg) (hf : FileKept s t) {r : Nat} {q : Requester}
    (ht : t.requesters = insertReq r q s.requesters) (hi : inflightOK s.cfg q = true) (hq : copyOK s q = true) :
    Inv t := by
  obtain ⟨hl, -, hw, hin, hcopy⟩ := h
  obtain ⟨hpri, hun⟩ := hf
  refine ⟨hc ▸ hl, hpri, ht ▸ insertReq_wf hw r q, fun e he => ?_, fun e he => ?_⟩
  · rw [hc]
    rcases mem_insertReq (ht ▸ he) with rfl | he
    · exact hi
    · exact hin e he
  · rw [copyOK_congr hc hun]
    rcases mem_insertReq (ht ▸ he) with rfl | he
    · exact hq
    · exact hcopy e he

/-- The case of a requester left with no in-flight record, and of a file that is not written. -/
theorem inv_of_insertReq_none {s t : State} (h : Inv s) (hc : t.cfg = s.cfg) (hp : t.pri = s.pri) {r : Nat}
    {q : Requester} (ht : t.requesters = insertReq r q s.requesters) (hq : q.inflight = none) : Inv t :=
  inv_of_insertReq h hc (fileKept_of_pri h hc hp) ht (inflightOK_of_none hq) (copyOK_of_none hq)

/-! ### The phases of a priority set -/

theorem inflightOK_me {s : State} (h : Inv s) : inflightOK s.cfg s.me = true :=
  inflightOK_lookup h s.cur

theorem copyOK_me {s : State} (h : Inv s) : copyOK s s.me = true :=
  copyOK_lookup h s.cur

/-- A copy just taken shows every byte of its word. -/
theorem copyOK_of_priWord {s : State} {q : Requester} {p : PrioSet} (hq : q.inflight = some p)
    (hc : p.c = s.priWord p.w) : copyOK s q = true := by
  simp [copyOK, hq, hc, laneOf_priWord]

/-- The invariant of a record does not look at its next phase. -/
theorem inflightOK_next {cfg : Config} {q : Requester} {p : PrioSet} (hp : q.inflight = some p) (n : Phase) :
    inflightOK cfg { q with inflight := some { p with next := n } } = inflightOK cfg q := by
  simp only [inflightOK, hp]
  cases q.queue <;> rfl

theorem copyOK_next {s : State} {q : Requester} {p : PrioSet} (hp : q.inflight = some p) (n : Phase) :
    copyOK s { q with inflight := some { p with next := n } } = copyOK s q := by
  simp only [copyOK, hp]

/-- The lane of a record lies at the slot of a valid id, which operations reach (10_state.md R33). -/
theorem record_slot_reachable {cfg : Config} {q : Requester} (h : inflightOK cfg q = true) {p : PrioSet}
    (hp : q.inflight = some p) : reachableByte cfg (4 * p.w + p.lane.val) = true := by
  obtain ⟨req, rest, id, byte, enc, -, ha, hw, hlane, -⟩ := inflight_request h hp
  obtain ⟨i, -, hi, -⟩ := requestArgs_some ha
  rw [hw, hlane]
  exact slot_reachable (prioArgs_some hi).1

/-- `P2` writes only the record's own lane anew; the bytes that no operation reaches it writes back as they are. -/
theorem fileKept_p2 {s : State} (h : Inv s) {p : PrioSet} (hp : s.me.inflight = some p) (hw : p.w < priWords s.cfg) :
    FileKept s { s with pri := setPriWord s.pri p.w (mergeLane p.c p.lane p.byte &&& 0xF0F0F0F0#32) } := by
  refine ⟨priWf_setPriWord h.2.1 _ _, fun k hk => ?_⟩
  by_cases hkw : k / 4 = p.w
  · obtain ⟨l, rfl⟩ : ∃ l : Fin 4, k = 4 * p.w + l.val := ⟨⟨k % 4, by omega⟩, by simp only; omega⟩
    have hl : l ≠ p.lane := by
      rintro rfl
      simp [record_slot_reachable (inflightOK_me h) hp] at hk
    have hcopy : laneOf p.c l = s.priByte (4 * p.w + l.val) := by
      have hall := copyOK_me h
      simp only [copyOK, hp, List.all_eq_true] at hall
      simpa [hk] using hall l (List.mem_finRange l)
    rw [priByte_set_lane h.2.1 hw, laneOf_masked, laneOf_mergeLane, if_neg hl, hcopy]
    exact and_f0_of_low (priByte_low h.2.1 _)
  · exact priByte_set_other h.2.1 hw _ hkw

/-! ### Every phase, and every step -/

/-- A phase of the operation that the current requester's outstanding request decodes to keeps the invariant. -/
theorem phaseStep_inv {s t : State} (h : Inv s) {q : Request} {rest : List Request} {i : Instr}
    (hq : s.me.queue = q :: rest) (hd : decode q = .ok i) (hp : PhaseStep s i t) : Inv t := by
  have hnone : isPrioSet i = false → s.me.inflight = none := fun hi =>
    inflight_none_of_request (inflightOK_me h) hq (requestArgs_none_of_not hd hi)
  cases hp with
  | fail k hk hn => exact inv_of_insertReq_none h rfl rfl rfl (hn.elim id hnone)
  | enable id hi hid => exact inv_of_insertReq_none h rfl rfl rfl (hnone (hi ▸ rfl))
  | disable id hi hid => exact inv_of_insertReq_none h rfl rfl rfl (hnone (hi ▸ rfl))
  | setPend id hi hid => exact inv_of_insertReq_none h rfl rfl rfl (hnone (hi ▸ rfl))
  | clearPend id hi hid => exact inv_of_insertReq_none h rfl rfl rfl (hnone (hi ▸ rfl))
  | getPend id hi hid => exact inv_of_insertReq_none h rfl rfl rfl (hnone (hi ▸ rfl))
  | getPrio id hi hid => exact inv_of_insertReq_none h rfl rfl rfl (hnone (hi ▸ rfl))
  | p1 id byte enc hi hn ha =>
    have hreq : requestArgs s.cfg q = some (id, byte, enc) := by simp only [requestArgs, hd, ha]
    exact inv_of_insertReq h rfl (fileKept_of_pri h rfl rfl) rfl (by simp [inflightOK, hq, hreq])
      (copyOK_of_priWord rfl rfl)
  | p2 p hi hp hn hw =>
    exact inv_of_insertReq h rfl (fileKept_p2 h hp hw) rfl ((inflightOK_next hp .p3).trans (inflightOK_me h))
      ((copyOK_next hp .p3).trans (copyOK_me h))
  | p3 p hi hp hn => exact inv_of_insertReq_none h rfl rfl rfl rfl

/-- The invariant speaks of neither the current requester, the schedule nor `PEND`. -/
theorem applyEnv_inv {s : State} (h : Inv s) (e : EnvEvent) (l : List Turn) :
    Inv (applyEnv e { s with schedule := l }) := by
  cases e <;> exact h

theorem step_inv {s t : State} (h : Inv s) (ht : step s = .next t) : Inv t := by
  cases machineStep_of_inv h ht with
  | ended _ => exact h
  | env e _ => exact applyEnv_inv h e _
  | void r _ _ => exact h
  | illegal r q rest _ hq hd =>
    have hnone : (s.requester r).inflight = none :=
      inflight_none_of_request (inflightOK_lookup h r) hq (by simp only [requestArgs, hd])
    exact inv_of_insertReq_none (s := s.beginRun r) h rfl rfl rfl hnone
  | phase r q rest i t _ hq hd _ hp => exact phaseStep_inv (s := s.beginRun r) h hq hd hp

/-! ### `SCR` after a step and after a run -/

/-- Where the next step writes `SCR`, it runs `P3` of the moving requester's outstanding request. -/
theorem scrWriteOf_some {s : State} {v : Word} (h : scrWriteOf s = some v) :
    ∃ r q p id byte, movingRequest s = some (r, q) ∧ (s.requester r).inflight = some p ∧ p.next = .p3 ∧
      requestArgs s.cfg q = some (id, byte, v) := by
  simp only [scrWriteOf] at h
  split at h
  · next r q hm =>
    split at h
    · next p hp =>
      simp only [Option.ite_none_right_eq_some, Option.map_eq_some_iff] at h
      obtain ⟨hn, ⟨id, byte, enc⟩, ha, rfl⟩ := h
      exact ⟨r, q, p, id, byte, hm, hp, hn, ha⟩
    · cases h
  · cases h

theorem movingRequest_some {s : State} {r : Nat} {q : Request} (h : movingRequest s = some (r, q)) :
    s.turn = some (.run r) ∧ ∃ rest, (s.requester r).queue = q :: rest := by
  simp only [movingRequest] at h
  split at h
  · next r' ht =>
    simp only [Option.map_eq_some_iff, Prod.mk.injEq] at h
    obtain ⟨q', hq, rfl, rfl⟩ := h
    exact ⟨ht, List.head?_eq_some_iff.1 hq⟩
  · cases h

/-- The step that writes `SCR` writes that value: under the invariant the record holds what the request asks for. -/
theorem step_scr_of_write {s t : State} (h : Inv s) (ht : step s = .next t) {v : Word} (hv : scrWriteOf s = some v) :
    t.scr = v := by
  obtain ⟨r, q, p, id, byte, hm, hp, hn, ha⟩ := scrWriteOf_some hv
  obtain ⟨htr, rest, hq⟩ := movingRequest_some hm
  obtain ⟨i, hd, -, hi⟩ := requestArgs_some ha
  obtain ⟨q', rest', id', byte', enc, hq', ha', -, -, -, henc⟩ := inflight_request (inflightOK_lookup h r) hp
  obtain ⟨rfl, rfl⟩ := List.cons.inj (hq.symm.trans hq')
  obtain ⟨-, -, rfl⟩ : id = id' ∧ byte = byte' ∧ v = enc := by simpa [ha] using ha'
  have hexec := exec_of_phaseStep (s := s.beginRun r) h.1 (.p3 p hi hp hn)
  rw [step_of_decoded h.1 htr hq hd, hexec] at ht
  cases ht
  exact henc

/-- `SCR` after one step: the value of its `P3`, or as before. -/
theorem step_scr {s t : State} (h : Inv s) (ht : step s = .next t) : t.scr = (scrWriteOf s).getD s.scr := by
  cases hv : scrWriteOf s with
  | some v => exact step_scr_of_write h ht hv
  | none =>
    by_contra hc
    obtain ⟨r, q, rest, -, -, hw, -⟩ := scr_changed_only_by_p3 h ht hc
    simp [hv] at hw

theorem lastScrWrite_succ {n : Nat} {s t : State} (h : step s = .next t) :
    lastScrWrite (n + 1) s = (lastScrWrite n t).or (scrWriteOf s) := by
  simp only [lastScrWrite, h]
  cases lastScrWrite n t <;> rfl

/-- `SCR` after a run, by induction on its length: a later `P3` wins over an earlier one. -/
theorem runSteps_scr {n : Nat} {s t : State} (h : Inv s) (ht : runSteps n s = .next t) :
    t.scr = (lastScrWrite n s).getD s.scr := by
  induction n generalizing s with
  | zero => cases ht; rfl
  | succ n ih =>
    obtain ⟨u, hu, -⟩ := step_cases h.1 (wordsInFile_of_inv h)
    rw [runSteps_succ hu] at ht
    rw [ih (step_inv h hu) ht, step_scr h hu, lastScrWrite_succ hu]
    cases lastScrWrite n u <;> rfl

/-! ### The statement -/

/-- Settles O53: the run by induction, and the value of a `P3` from the request that it answers. -/
theorem scrHoldsLastWrite : Obligations.ScrHoldsLastWrite := by
  refine ⟨fun n s t h ht => runSteps_scr h ht, fun s v hv => ?_⟩
  obtain ⟨r, q, p, _, _, hm, -, -, ha⟩ := scrWriteOf_some hv
  obtain ⟨i, hd, hi, -⟩ := requestArgs_some ha
  refine ⟨r, q, hm, ?_⟩
  rcases prioArgs_enc hi with ⟨id, x, rfl, he⟩ | ⟨id, g, sub, rfl, he⟩
  · exact .inl ⟨id, x, hd, he⟩
  · exact .inr ⟨id, g, sub, hd, he⟩

end Sys2Proof.Proofs
end

section
/-! SUPPORT. The priority operations (42_priority_ops.md R123 to R129): the field byte and its unpacking, the three
phases of a priority set one by one and in a row, and the read of a slot. -/

namespace Sys2Proof.Proofs

open Sys2Proof Sys2Proof.Machine Sys2Proof.Laws

/-! ### The field byte and its unpacking (R123, R124) -/

/-- The field byte has the value's low nibble on top, and zeros below. -/
theorem toField_eq (v : Byte) : toField v = v.extractLsb' 0 4 ++ 0#4 := by
  revert v; decide

theorem fromField_eq (b : Byte) : fromField b = (b.extractLsb' 4 4).setWidth 32 := by
  revert b; decide

theorem toNat_toField (v : Byte) : (toField v).toNat = (v.toNat % 16) * 16 := by
  rw [toField_eq, BitVec.toNat_append, BitVec.extractLsb'_toNat]
  simp [Nat.shiftLeft_eq]

/-- The nibble of a slot byte, at the width of `RDATA`. -/
theorem toNat_nibble (b : Byte) : ((b.extractLsb' 4 4).setWidth 32).toNat = (b.extractLsb' 4 4).toNat :=
  BitVec.toNat_setWidth_of_le (by decide)

theorem nibble_le (b : Byte) : ((b.extractLsb' 4 4).setWidth 32).toNat ≤ 15 := by
  have := (b.extractLsb' 4 4).isLt
  rw [toNat_nibble]
  omega

/-- The field byte of an operand, which is first cut to its low byte (R127, R128). -/
theorem toField_setWidth (p : Word) : toField (p.setWidth 8) = p.extractLsb' 0 4 ++ 0#4 := by
  rw [toField_eq]
  congr 1
  apply BitVec.eq_of_getLsbD_eq
  intro i hi
  simp [hi, show i < 8 by omega]

/-! ### Three phases in a row (R126) -/

theorem isPrioSet_of_prioArgs {cfg : Config} {i : Instr} {x : Word × Byte × Word} (h : prioArgs cfg i = some x) :
    isPrioSet i = true := by
  cases i with
  | setPriorityRaw | setPriorityGrouped => rfl
  | enableIRQ | disableIRQ | setPendingIRQ | clearPendingIRQ | getPendingIRQ | getPriority => cases h

/-- `u` comes from `s` by phases of the current requester, which now holds the record `p`: what `P1` and `P2` keep, but
for `SCR`, which `P3` writes whatever it was. -/
def Between (s u : State) (p : PrioSet) : Prop :=
  u.me = { s.me with inflight := some p } ∧ OthersKept s u ∧ SetupKept s u ∧ u.en = s.en ∧ u.pend = s.pend

/-- A requester that is answered ok between its phases is answered as it was before them. -/
theorem answeredOk_of_between {s u t : State} {p : PrioSet} {x : Option PrioSet} (hb : Between s u p)
    (h : AnsweredOk u t x) : AnsweredOk s t x := by
  obtain ⟨hme, ho, ⟨-, hcur, -⟩, -, -⟩ := hb
  obtain ⟨⟨d, ht⟩, hto⟩ := h
  rw [hcur, hme] at ht
  exact ⟨⟨d, ht⟩, fun r hr => (hto r (hcur ▸ hr)).trans (ho r hr)⟩

/-- `P1`: a record with a copy of the word. -/
theorem exec_p1 {s : State} {i : Instr} {id : Word} {byte : Byte} {enc : Word} (hl : s.cfg.legal = true)
    (hn : s.me.inflight = none) (ha : prioArgs s.cfg i = some (id, byte, enc)) :
    ∃ u, exec i s = .next u ∧
      Between s u ⟨pword id, plane s.cfg.prioIndexMode id, byte, enc, .p2, s.priWord (pword id)⟩ ∧ u.pri = s.pri :=
  ⟨_, exec_of_prioArgs hl ha hn, ⟨setInflight_requester_cur s _, fun _ hr => setInflight_requester_other s _ hr,
    ⟨rfl, rfl, rfl⟩, rfl, rfl⟩, rfl⟩

section
variable {s u : State} {i : Instr} {p : PrioSet}
variable (hl : s.cfg.legal = true) (hi : isPrioSet i = true) (hb : Between s u p)
include hl hi hb

/-- `P2`: the copy is written back, with the record's lane replaced. -/
theorem exec_p2 (hn : p.next = .p2) (hw : p.w < priWords s.cfg) :
    ∃ v, exec i u = .next v ∧ Between s v { p with next := .p3 } ∧
      v.pri = setPriWord u.pri p.w (mergeLane p.c p.lane p.byte &&& 0xF0F0F0F0#32) := by
  obtain ⟨hme, ho, ⟨hcfg, hcur, hsch⟩, hen, hpend⟩ := hb
  have hp : u.me.inflight = some p := congrArg Requester.inflight hme
  refine ⟨_, exec_of_phaseStep (hcfg ▸ hl) (.p2 p hi hp hn (hcfg ▸ hw)),
    ⟨?me, fun r hr => ?others, ⟨hcfg, hcur, hsch⟩, hen, hpend⟩, rfl⟩
  case me =>
    exact (setInflight_requester_cur _ _).trans
      (congrArg (fun q => { q with inflight := some { p with next := .p3 } }) hme)
  case others => exact (setInflight_requester_other _ _ (hcur ▸ hr)).trans (ho r hr)

/-- `P3`: `SCR` is written, and the requester has its ok and no record. -/
theorem exec_p3 (hn : p.next = .p3) :
    ∃ t, exec i u = .next t ∧ t.pri = u.pri ∧ t.scr = p.enc ∧ t.en = s.en ∧ t.pend = s.pend ∧ SetupKept s t ∧
      AnsweredOk s t none := by
  have hans := answeredOk_of_between hb (answeredOk_respondOkClearing { u with scr := p.enc })
  obtain ⟨hme, -, ⟨hcfg, hcur, hsch⟩, hen, hpend⟩ := hb
  have hp : u.me.inflight = some p := congrArg Requester.inflight hme
  exact ⟨_, exec_of_phaseStep (hcfg ▸ hl) (.p3 p hi hp hn), rfl, rfl, hen, hpend, ⟨hcfg, hcur, hsch⟩, hans⟩

end

/-- The three phases of a valid priority set in a row: the id's slot holds the field byte, `SCR` the encoding asked for,
and the requester has its ok. `P2` finds the word as `P1` copied it, so the kept lanes are written back as they are. -/
theorem exec_three_phases {s : State} {i : Instr} {id : Word} {byte : Byte} {enc : Word} (hl : s.cfg.legal = true)
    (hwf : PriWf s) (hn : s.me.inflight = none) (ha : prioArgs s.cfg i = some (id, byte, enc)) :
    ∃ s1 s2 t, exec i s = .next s1 ∧ exec i s1 = .next s2 ∧ exec i s2 = .next t ∧
      (∀ k, t.priByte k = if k = slot s.cfg.prioIndexMode id then byte else s.priByte k) ∧
      t.scr = enc ∧ t.en = s.en ∧ t.pend = s.pend ∧ ReadsKept s t [iprAddr s.cfg (pword id)] ∧
      SetupKept s t ∧ AnsweredOk s t none := by
  obtain ⟨hid, -, hlow⟩ := prioArgs_some ha
  have hi := isPrioSet_of_prioArgs ha
  have hw := pword_lt_priWords hid
  obtain ⟨s1, h1, hb1, hpri1⟩ := exec_p1 hl hn ha
  obtain ⟨s2, h2, hb2, hpri2⟩ := exec_p2 hl hi hb1 rfl hw
  obtain ⟨t, h3, hpri3, hscr, hen, hpend, hset, hans⟩ := exec_p3 hl hi hb2 rfl
  have hbyte : ∀ k, t.priByte k = if k = slot s.cfg.prioIndexMode id then byte else s.priByte k := fun k => by
    rw [← priByte_merged hwf hw hlow]
    simp only [State.priByte, hpri3, hpri2, hpri1]
  refine ⟨s1, s2, t, h1, h2, h3, hbyte, hscr, hen, hpend, readsKept_pri hset.1 hen hpend fun w hne => ?_, hset, hans⟩
  exact priWord_ext fun l => by rw [hbyte, if_neg (by simp only [slot]; omega)]

/-! ### What the operations ask for, and their failing checks (R127, R128) -/

theorem prioArgs_setPriorityRaw {cfg : Config} {id p : Word} (hid : id.toNat < cfg.numIrq) (hp : p.toNat ≤ 255) :
    prioArgs cfg (.setPriorityRaw id p) = some (id, p.extractLsb' 0 4 ++ 0#4, encOf cfg.enc .g0s16) := by
  have hv : valid cfg (.setPriorityRaw id p) = true := (valid_iff _ _).2 ((firstFailure_none _ _).2 ⟨hid, hp⟩)
  rw [prioArgs, if_pos hv, toField_setWidth]

theorem prioArgs_setPriorityGrouped {cfg : Config} {id g sub : Word} (hg : g.toNat ≤ maxGroup cfg.mode)
    (hsub : sub.toNat ≤ maxSub cfg.mode) (hid : id.toNat < cfg.numIrq) :
    prioArgs cfg (.setPriorityGrouped id g sub) =
      some (id, (pack cfg.mode g sub).extractLsb' 0 4 ++ 0#4, encOf cfg.enc cfg.mode) := by
  have hv : valid cfg (.setPriorityGrouped id g sub) = true :=
    (valid_iff _ _).2 ((firstFailure_none _ _).2 ⟨⟨hg, hsub⟩, hid⟩)
  rw [prioArgs, if_pos hv, toField_setWidth]

/-- With nothing in flight, any request is answered not-ok with the kind of its first failing check. -/
theorem exec_failed_of_inflight_none {s : State} {i : Instr} {k : ErrKind} (hn : s.me.inflight = none)
    (hk : firstFailure s.cfg i = some k) : ∃ t, exec i s = .next t ∧ Failed s t k :=
  ⟨_, exec_of_firstFailure hk (.inl hn), failed_failWith s k⟩

theorem idPrioOK_false {cfg : Config} {id : Word} (h : cfg.numIrq ≤ id.toNat) : ¬ idPrioOK cfg id = true :=
  fun hid => absurd ((idPrioOK_iff cfg id).1 hid) (not_lt.2 h)

/-! ### The statements -/

/-- Settles O29: each phase is one access and one change of the in-flight record. -/
theorem priorityWritePhases : Obligations.PriorityWritePhases := by
  refine ⟨fun s i id byte enc hl hn ha => ?p1, fun s i p hl hwf hi hp hn hw => ?p2, fun s i p hl hi hp hn => ?p3⟩
  case p1 =>
    exact ⟨_, _, exec_of_prioArgs hl ha hn, csrRead_ipr hl (pword_lt_priWords (prioArgs_some ha).1),
      setInflight_requester_cur s _, fun _ hr => setInflight_requester_other s _ hr, ⟨rfl, rfl, rfl, rfl⟩,
      readsKept_all rfl rfl rfl rfl, ⟨rfl, rfl, rfl⟩⟩
  case p2 =>
    exact ⟨_, _, exec_of_phaseStep hl (.p2 p hi hp hn hw), csrWrite_ipr hl hw _, ⟨rfl, rfl, rfl, rfl⟩,
      priWord_set hwf hw _, fun l => laneOf_mergeLane p.c p.lane l p.byte,
      fun _ hk => priByte_set_other hwf hw _ hk, rfl, rfl, rfl,
      setInflight_requester_cur _ _, fun _ hr => setInflight_requester_other _ _ hr,
      readsKept_pri rfl rfl rfl fun _ hne => priWord_set_other hwf hw _ hne, ⟨rfl, rfl, rfl⟩⟩
  case p3 =>
    exact ⟨_, exec_of_phaseStep hl (.p3 p hi hp hn), csrWrite_scr hl _, rfl, rfl, rfl, rfl,
      answeredOk_respondOkClearing { s with scr := p.enc }, readsKept_all rfl rfl rfl rfl, ⟨rfl, rfl, rfl⟩⟩

/-- Settles O30: the operation's arguments, written by three phases in a row; the id's check comes before the value's. -/
theorem setPriorityRawWritesItsSlot : Obligations.SetPriorityRawWritesItsSlot := by
  refine ⟨fun q h => decode_of_mask q 0b101#3 h, fun s id p hl hwf hn hid hp => ?writes, fun s id p hn hid => ?idRange,
    fun s id p hn hid hp => ?prioRange⟩
  case writes => exact exec_three_phases hl hwf hn (prioArgs_setPriorityRaw hid hp)
  case idRange => exact exec_failed_of_inflight_none hn (if_neg (idPrioOK_false hid))
  case prioRange =>
    exact exec_failed_of_inflight_none hn
      ((if_pos ((idPrioOK_iff _ id).2 hid)).trans (if_neg fun h => absurd ((rawOK_iff p).1 h) (not_le.2 hp)))

/-- Settles O31: the operation's arguments, written by three phases in a row; the group's check comes before the id's. -/
theorem setPriorityGroupedWritesItsSlot : Obligations.SetPriorityGroupedWritesItsSlot := by
  refine ⟨fun q h => decode_of_mask q 0b110#3 h, fun s id g sub hl hwf hn hg hsub hid => ?writes,
    fun s id g sub hn hgs => ?groupSub, fun s id g sub hn hg hsub hid => ?idRange⟩
  case writes => exact exec_three_phases hl hwf hn (prioArgs_setPriorityGrouped hg hsub hid)
  case groupSub =>
    refine exec_failed_of_inflight_none hn (if_neg fun h => ?_)
    obtain ⟨hg, hsub⟩ := (gsOK_iff _ g sub).1 h
    exact hgs.elim (not_lt.2 hg) (not_lt.2 hsub)
  case idRange =>
    exact exec_failed_of_inflight_none hn
      ((if_pos ((gsOK_iff _ g sub).2 ⟨hg, hsub⟩)).trans (if_neg (idPrioOK_false hid)))

/-- Settles O32: the lane of the word read is the slot's byte, and the answer is its nibble; the id's check comes before
the output location's. -/
theorem getPriorityReadsItsSlot : Obligations.GetPriorityReadsItsSlot := by
  refine ⟨fun q h => decode_of_mask q 0b111#3 h, fun s id hl _ hid => ?reads, fun s id ov hid => ?idRange,
    fun s id hid => ?nullOut⟩
  case reads =>
    have hexec := exec_getPriority hl hid
    rw [fromField_eq] at hexec
    exact ⟨_, _, _, hexec, csrRead_ipr hl (pword_lt_priWords hid), laneOf_priWord s (pword id) _, rfl, nibble_le _,
      answeredData_respondData s _, ⟨rfl, rfl, rfl, rfl⟩, readsKept_all rfl rfl rfl rfl, ⟨rfl, rfl, rfl⟩⟩
  case idRange => exact exec_failed_of_firstFailure (if_neg (idPrioOK_false hid)) rfl
  case nullOut => exact exec_failed_of_firstFailure (if_pos ((idPrioOK_iff _ id).2 hid)) rfl

/-- Settles O16: the first equation of each half is the definition; the others read the nibble off the byte. -/
theorem fieldByteAndUnpack : Obligations.FieldByteAndUnpack := by
  refine ⟨fun v => ⟨rfl, toNat_toField v, toField_eq v⟩, fun b => ⟨rfl, fun _ => ?_⟩⟩
  rw [fromField_eq]
  exact ⟨toNat_nibble b, nibble_le b⟩

end Sys2Proof.Proofs
end

section
/-! SUPPORT. Reset and the configuration (70_reset_and_hazards.md R173, R176). That the configuration is fixed is said of
every state, with no invariant: so it is followed through the accesses, whatever register an address reaches, and not
through the lemmas that say which one it is. -/

namespace Sys2Proof.Proofs

open Sys2Proof Sys2Proof.Machine Sys2Proof.Laws

/-! ### The state after reset (R173) -/

@[simp] theorem effective_of_switch_off {cfg : Config} (h : cfg.assumeCortexMReset = false) (d : ResetDraw) :
    d.effective cfg = d := by
  simp [ResetDraw.effective, h]

/-- Each byte of the file is its drawn nibble over a zero nibble. -/
theorem resetFrom_priByte {cfg : Config} (h : cfg.assumeCortexMReset = false) (d : ResetDraw) {k : Nat}
    (hk : k < 4 * priWords cfg) : (State.resetFrom cfg d).priByte k = d.nibbles.getD k 0#4 ++ 0#4 := by
  simp [State.priByte, State.resetFrom, h, hk]

theorem resetFrom_pri_length (cfg : Config) (d : ResetDraw) :
    (State.resetFrom cfg d).pri.length = 4 * priWords cfg := by
  simp [State.resetFrom]

@[simp] theorem resetFrom_requester (cfg : Config) (d : ResetDraw) (r : Nat) :
    (State.resetFrom cfg d).requester r = Requester.idle := rfl

/-! ### The configuration after each operation (R176) -/

@[simp] theorem writeReg_cfg (s : State) (v : Word) (c : Csr) : (writeReg s v c).cfg = s.cfg := by
  cases c <;> rfl

section
variable {s t : State}

/-- A read access followed by an update that keeps the configuration: at an address with no register it faults. -/
theorem loadCsr_cfg {a : Nat} {f : Word → State} (hf : ∀ v, (f v).cfg = s.cfg)
    (h : loadCsr a s (fun v => .next (f v)) = .next t) : t.cfg = s.cfg := by
  simp only [loadCsr] at h
  split at h
  · cases h; exact hf _
  · cases h

/-- A write access followed by an update that keeps the configuration, whichever register the address reaches. -/
theorem storeCsr_cfg {a : Nat} {v : Word} {f : State → State} (hf : ∀ s', (f s').cfg = s'.cfg)
    (h : storeCsr a v s (fun s' => .next (f s')) = .next t) : t.cfg = s.cfg := by
  simp only [storeCsr, csrWrite] at h
  cases hc : csrAt s.cfg a with
  | none => simp [hc] at h
  | some c =>
    obtain rfl : f (writeReg s v c) = t := by simpa [hc] using h
    rw [hf, writeReg_cfg]

/-- A checked operation keeps the configuration if what follows the check does: otherwise it is `FAIL(k)`. -/
theorem checked_cfg {b : Bool} {m : Result} {k : ErrKind} (hm : m = .next t → t.cfg = s.cfg)
    (h : (if b then m else .next (failWith k s)) = .next t) : t.cfg = s.cfg := by
  cases b with
  | true => exact hm h
  | false => cases h; rfl

theorem bankWrite_cfg {addr : Config → Nat → Nat} {id : Word} (h : bankWrite addr id s = .next t) : t.cfg = s.cfg :=
  checked_cfg (storeCsr_cfg respondOk_cfg) h

theorem execGetPendingIRQ_cfg {id : Word} {ov : Bool} (h : execGetPendingIRQ id ov s = .next t) : t.cfg = s.cfg :=
  checked_cfg (checked_cfg (loadCsr_cfg fun _ => respondData_cfg s _)) h

theorem execGetPriority_cfg {id : Word} {ov : Bool} (h : execGetPriority id ov s = .next t) : t.cfg = s.cfg :=
  checked_cfg (checked_cfg (loadCsr_cfg fun _ => respondData_cfg s _)) h

theorem prioBegin_cfg {id : Word} {byte : Byte} {enc : Word} (h : prioBegin id byte enc s = .next t) :
    t.cfg = s.cfg :=
  loadCsr_cfg (fun _ => setInflight_cfg s _) h

theorem prioContinue_cfg {p : PrioSet} (h : prioContinue p s = .next t) : t.cfg = s.cfg := by
  simp only [prioContinue] at h
  split at h
  · exact storeCsr_cfg (fun s' => setInflight_cfg s' _) h
  · exact storeCsr_cfg respondOkClearing_cfg h

theorem execSetPriorityRaw_cfg {id p : Word} (h : execSetPriorityRaw id p s = .next t) : t.cfg = s.cfg := by
  simp only [execSetPriorityRaw] at h
  split at h
  · exact prioContinue_cfg h
  · exact checked_cfg (checked_cfg prioBegin_cfg) h

theorem execSetPriorityGrouped_cfg {id g sub : Word} (h : execSetPriorityGrouped id g sub s = .next t) :
    t.cfg = s.cfg := by
  simp only [execSetPriorityGrouped] at h
  split at h
  · exact prioContinue_cfg h
  · exact checked_cfg (checked_cfg prioBegin_cfg) h

theorem exec_cfg {i : Instr} (h : exec i s = .next t) : t.cfg = s.cfg := by
  cases i with
  | enableIRQ | disableIRQ | setPendingIRQ | clearPendingIRQ => exact bankWrite_cfg h
  | getPendingIRQ => exact execGetPendingIRQ_cfg h
  | setPriorityRaw => exact execSetPriorityRaw_cfg h
  | setPriorityGrouped => exact execSetPriorityGrouped_cfg h
  | getPriority => exact execGetPriority_cfg h

theorem runPhase_cfg (h : runPhase s = .next t) : t.cfg = s.cfg := by
  simp only [runPhase] at h
  split at h
  · cases h; rfl
  · split at h
    · cases h; rfl
    · exact exec_cfg h

theorem step_cfg (h : step s = .next t) : t.cfg = s.cfg := by
  simp only [step] at h
  split at h
  · split at h
    · cases h; rfl
    · cases h; simp
    · next r _ => exact runPhase_cfg (s := s.beginRun r) h
  · cases h

theorem step_of_illegalConfig (h : s.cfg.legal = false) : step s = .refused .illegalConfig := by
  simp [step, h]

end

/-- The four checks on a configuration are R176's ranges: `legal_ranges` is the one direction. -/
theorem legal_iff (cfg : Config) : cfg.legal = true ↔
    (1 ≤ cfg.numIrq ∧ cfg.numIrq ≤ 96) ∧ (∀ r ∈ csrRanges cfg, r.1 % 4 = 0 ∧ r.1 + 4 * r.2 ≤ 2 ^ 32) ∧
      (csrRanges cfg).Pairwise RangesApart := by
  constructor
  · intro h
    obtain ⟨hn, haligned, hfit, hapart⟩ := legal_ranges h
    exact ⟨hn, fun r hr => ⟨haligned r hr, hfit r hr⟩, hapart⟩
  · rintro ⟨⟨hlo, hhi⟩, hbases, hapart⟩
    have haligned : cfg.basesAligned = true := List.all_eq_true.2 fun r hr => beq_iff_eq.2 (hbases r hr).1
    have hfit : cfg.addressesFit = true := List.all_eq_true.2 fun r hr => decide_eq_true (hbases r hr).2
    simp [Config.legal, Config.numIrqLegal, Config.rangesDisjoint, hlo, hhi, haligned, hfit, hapart]

/-! ### The statements -/

/-- Settles O46: no operation changes the configuration, and the step checks its ranges first. -/
theorem configurationFixed : Obligations.ConfigurationFixed :=
  ⟨fun _ _ h => step_cfg h, fun _ h => step_of_illegalConfig h, legal_iff⟩

/-- Settles O44: with the switch off the draws stand as given, and every requester is idle. -/
theorem resetLeavesEveryDraw : Obligations.ResetLeavesEveryDraw := by
  intro cfg d h
  have hd := effective_of_switch_off h d
  exact ⟨congrArg ResetDraw.en hd, congrArg ResetDraw.pend hd, congrArg ResetDraw.scr hd, resetFrom_pri_length cfg d,
    fun _ hk => resetFrom_priByte h d hk, fun r => by simp [Requester.idle]⟩

end Sys2Proof.Proofs
end

section
/-! SUPPORT. What one step does to the requesters (20_memory.md R57 to R59, 40_dispatcher.md R88, R89): it moves at most one
of them, by a response or by the next phase of its priority set. The responses of a run and its end follow. -/

namespace Sys2Proof.Proofs

open Sys2Proof Sys2Proof.Machine Sys2Proof.Laws

/-! ### What a phase does to its requester -/

/-- What a phase does to its requester: a response, which carries data only where the operation reads; or, in a priority set,
the record that `P1` makes and the one that `P2` leaves. -/
inductive RequesterStep (reads : Bool) (q : Requester) : Requester → Prop where
  | answered (resp : Response) (x : Option PrioSet) (hr : resp.rvalid = (resp.status && reads)) :
      RequesterStep reads q (q.receive resp x)
  | begun (p : PrioSet) (hq : q.inflight = none) (hp : p.next = .p2) :
      RequesterStep reads q { q with inflight := some p }
  | written (p : PrioSet) (hq : q.inflight = some p) (hp : p.next = .p2) :
      RequesterStep reads q { q with inflight := some { p with next := .p3 } }

theorem RequesterStep.ne_idle {reads : Bool} {q q' : Requester} (h : RequesterStep reads q q') :
    q' ≠ Requester.idle := by
  cases h with
  | answered resp x _ => exact receive_ne_idle q resp x
  | begun | written => intro he; cases congrArg Requester.inflight he

/-- A priority set reads nothing (30_encoding.md R67). -/
theorem usesOV_of_isPrioSet {i : Instr} (h : isPrioSet i = true) : usesOV i.opcode = false := by
  cases i with
  | setPriorityRaw | setPriorityGrouped => rfl
  | enableIRQ | disableIRQ | setPendingIRQ | clearPendingIRQ | getPendingIRQ | getPriority => cases h

/-- The table after a phase: the current requester alone is replaced. -/
theorem phaseStep_requesters {s t : State} {i : Instr} (h : PhaseStep s i t) :
    ∃ q', RequesterStep (usesOV i.opcode) s.me q' ∧ t.requesters = insertReq s.cur q' s.requesters := by
  cases h with
  | fail => exact ⟨_, .answered _ _ rfl, rfl⟩
  | enable _ hi | disable _ hi | setPend _ hi | clearPend _ hi | getPend _ hi | getPrio _ hi =>
    subst hi; exact ⟨_, .answered _ _ rfl, rfl⟩
  | p1 id byte enc hi hn ha => exact ⟨_, .begun _ hn rfl, rfl⟩
  | p2 p hi hp hn hw => exact ⟨_, .written p hp hn, rfl⟩
  | p3 p hi hp hn => exact ⟨_, .answered _ _ (by rw [usesOV_of_isPrioSet hi]; rfl), rfl⟩

/-- The requesters of a state whose table has one replaced. -/
theorem requester_of_insertReq {s t : State} {r : Nat} {q : Requester} (hq : q ≠ Requester.idle)
    (h : t.requesters = insertReq r q s.requesters) :
    t.requester r = q ∧ ∀ r', r' ≠ r → t.requester r' = s.requester r' := by
  simp only [State.requester, h]
  exact ⟨lookupReq_insertReq_same hq r _, fun _ hr => lookupReq_insertReq_other hr q _⟩

/-! ### What a step does to the requesters -/

/-- A step with no request to move leaves the table as it is; in any other the moving requester makes a `RequesterStep`. -/
theorem machineStep_requesters {s t : State} (h : MachineStep s t) :
    movingRequest s = none ∧ t.requesters = s.requesters ∨
      ∃ r reads q', s.turn = some (.run r) ∧ (s.requester r).queue ≠ [] ∧ RequesterStep reads (s.requester r) q' ∧
        t.requesters = insertReq r q' s.requesters := by
  cases h with
  | ended ht => exact .inl ⟨by simp [movingRequest, ht], rfl⟩
  | env e ht => exact .inl ⟨by simp [movingRequest, ht], applyEnv_requesters e _⟩
  | void r ht hq => exact .inl ⟨by simp [movingRequest, ht, hq], rfl⟩
  | illegal r q rest ht hq hd => exact .inr ⟨r, false, _, ht, by simp [hq], .answered _ _ rfl, rfl⟩
  | phase r q rest i t ht hq hd he hp =>
    obtain ⟨q', hs, htab⟩ := phaseStep_requesters hp
    exact .inr ⟨r, _, q', ht, by simp [hq], hs, htab⟩

/-- A step leaves every requester but the one whose turn it is as it was. -/
theorem machineStep_requester_other {s t : State} (h : MachineStep s t) {r : Nat} (hr : s.turn ≠ some (.run r)) :
    t.requester r = s.requester r := by
  rcases machineStep_requesters h with ⟨-, htab⟩ | ⟨r', reads, q', ht, -, hs, htab⟩
  · simp only [State.requester, htab]
  · refine (requester_of_insertReq hs.ne_idle htab).2 r ?_
    rintro rfl
    exact hr ht

/-! ### Responses, over a step and over a run (R88, R94) -/

/-- Between two views of a requester, as many responses were added at the end as requests left at the front. -/
def AnsweredInOrder (q q' : Requester) : Prop :=
  ∃ done answers, q.queue = done ++ q'.queue ∧ q'.responses = q.responses ++ answers ∧ answers.length = done.length

theorem AnsweredInOrder.refl (q : Requester) : AnsweredInOrder q q :=
  ⟨[], [], rfl, (List.append_nil _).symm, rfl⟩

theorem AnsweredInOrder.trans {q q' q'' : Requester} (h : AnsweredInOrder q q') (h' : AnsweredInOrder q' q'') :
    AnsweredInOrder q q'' := by
  obtain ⟨done, answers, hq, ha, hl⟩ := h
  obtain ⟨done', answers', hq', ha', hl'⟩ := h'
  exact ⟨done ++ done', answers ++ answers', by rw [hq, hq', List.append_assoc],
    by rw [ha', ha, List.append_assoc], by rw [List.length_append, List.length_append, hl, hl']⟩

/-- A response takes the outstanding request off the queue; the other phases take none and answer none. -/
theorem RequesterStep.answeredInOrder {reads : Bool} {q q' : Requester} (h : RequesterStep reads q q')
    (hq : q.queue ≠ []) : AnsweredInOrder q q' := by
  cases h with
  | answered resp x _ =>
    obtain ⟨req, rest, hq⟩ := List.exists_cons_of_ne_nil hq
    exact ⟨[req], [resp], by simp [Requester.receive, hq], rfl, rfl⟩
  | begun p | written p => exact ⟨[], [], rfl, (List.append_nil _).symm, rfl⟩

theorem machineStep_answeredInOrder {s t : State} (h : MachineStep s t) (r : Nat) :
    AnsweredInOrder (s.requester r) (t.requester r) := by
  rcases machineStep_requesters h with ⟨-, htab⟩ | ⟨r', reads, q', -, hq, hs, htab⟩
  · simp only [State.requester, htab]
    exact .refl _
  · obtain ⟨hsame, hother⟩ := requester_of_insertReq hs.ne_idle htab
    by_cases hr : r = r'
    · subst hr; rw [hsame]; exact hs.answeredInOrder hq
    · rw [hother r hr]; exact .refl _

theorem step_of_inv {s : State} (h : Inv s) : ∃ t, step s = .next t ∧ MachineStep s t :=
  step_cases h.1 (wordsInFile_of_inv h)

/-- What every step from a state with the invariant keeps or composes, a run does: the induction over a run, once. -/
theorem runSteps_induct {P : State → State → Prop} (hrefl : ∀ s : State, P s s)
    (hstep : ∀ s u t : State, Inv s → step s = .next u → P u t → P s t) {n : Nat} {s t : State} (h : Inv s)
    (ht : runSteps n s = .next t) : P s t := by
  induction n generalizing s with
  | zero => cases ht; exact hrefl _
  | succ n ih =>
    obtain ⟨u, hu, -⟩ := step_of_inv h
    rw [runSteps_succ hu] at ht
    exact hstep s u t h hu (ih (step_inv h hu) ht)

theorem runSteps_inv {n : Nat} {s t : State} (h : Inv s) (ht : runSteps n s = .next t) : Inv t :=
  runSteps_induct (P := fun s t : State => Inv s → Inv t) (fun _ => id) (fun _ _ _ h hu ih _ => ih (step_inv h hu)) h ht h

/-! ### The statements -/

/-- Settles O41: the case split over the phases is `phaseStep_inv`. -/
theorem stepKeepsInvariant : Obligations.StepKeepsInvariant :=
  fun _ _ h ht => step_inv h ht

/-- Settles O40: under the invariant the configuration is legal, and every in-flight record names a word of the file. -/
theorem noStepStops : Obligations.NoStepStops := by
  intro s h
  obtain ⟨t, ht, -⟩ := step_of_inv h
  exact ⟨t, ht⟩

/-- Settles O37: the phase answers, or moves its record on and leaves the rest of its requester. -/
theorem responsesAndOutputLocation : Obligations.ResponsesAndOutputLocation := by
  intro s t i hl hw ht
  obtain ⟨q', hs, htab⟩ := phaseStep_requesters (exec_next hl hw ht)
  rw [(requester_of_insertReq hs.ne_idle htab).1]
  cases hs with
  | answered resp x hr => exact .inr ⟨resp, rfl, rfl, hr, rfl⟩
  | begun p | written p => exact .inl ⟨rfl, rfl, rfl⟩

/-- Settles O57: each step answers in order, and the run by induction. -/
theorem oneResponsePerRequest : Obligations.OneResponsePerRequest := by
  intro n s t h ht r
  refine runSteps_induct (P := fun s t => AnsweredInOrder (s.requester r) (t.requester r)) (fun _ => .refl _) ?_ h ht
  intro s u t h hu ih
  exact (machineStep_answeredInOrder (machineStep_of_inv h hu) r).trans ih

/-- Settles O58: with no request to move and no event, the run has ended or the turn is that of an idle requester. -/
theorem onlyTheMoverActs : Obligations.OnlyTheMoverActs := by
  intro s t h ht
  have hs := machineStep_of_inv h ht
  refine ⟨fun r hr => machineStep_requester_other hs hr, fun hm he => ?_⟩
  cases hs with
  | ended | void => exact ⟨⟨rfl, rfl, rfl, rfl⟩, fun _ => rfl⟩
  | env e htr => exact absurd htr (he e)
  | illegal r q rest htr hq => simp [movingRequest, htr, hq] at hm
  | phase r q rest _ _ htr hq => simp [movingRequest, htr, hq] at hm

end Sys2Proof.Proofs
end

section
/-! SUPPORT. Every run ends (40_dispatcher.md R91, 70_reset_and_hazards.md R182): each step that is not the end of the run
takes at least one from the work that is left. -/

namespace Sys2Proof.Proofs

open Sys2Proof Sys2Proof.Machine Sys2Proof.Laws

/-! ### The work of one requester -/

/-- An in-flight record is at most two phases ahead. -/
theorem le_workOf (q : Requester) : 3 * q.queue.length - 2 ≤ workOf q := by
  simp only [workOf]
  split
  · omega
  · split <;> omega

/-- Each phase takes at least one from its requester's work. -/
theorem RequesterStep.workOf_lt {reads : Bool} {q q' : Requester} (h : RequesterStep reads q q') (hq : q.queue ≠ []) :
    workOf q' < workOf q := by
  have hlen := List.length_pos_iff.2 hq
  cases h with
  | answered resp x _ =>
    have hdone : workOf (q.receive resp x) ≤ 3 * (q.queue.length - 1) := by
      simp only [workOf, Requester.receive, List.length_tail]
      omega
    have hleft := le_workOf q
    omega
  | begun p hn hp => simp only [workOf, hn, hp]; omega
  | written p hp hn => simp only [workOf, hp, hn]; omega

/-! ### The work of the table -/

/-- The work of a table of requesters. -/
def tableWork (t : List (Nat × Requester)) : Nat :=
  (t.map fun e => workOf e.2).sum

@[simp] theorem tableWork_nil : tableWork [] = 0 := rfl

@[simp] theorem tableWork_cons (e : Nat × Requester) (t : List (Nat × Requester)) :
    tableWork (e :: t) = workOf e.2 + tableWork t := by
  simp [tableWork]

theorem work_eq (s : State) : s.work = s.schedule.length + tableWork s.requesters := rfl

/-- In a table whose numbers are all above `r`, requester `r` is idle. -/
theorem lookupReq_idle_of_lt {t : List (Nat × Requester)} {r : Nat} (h : ∀ e ∈ t, r < e.1) :
    lookupReq t r = Requester.idle := by
  induction t with
  | nil => rfl
  | cons e rest ih =>
    obtain ⟨k, p⟩ := e
    have hk : r < k := h _ List.mem_cons_self
    simp only [lookupReq, if_neg hk.ne']
    exact ih fun e he => h e (List.mem_cons_of_mem _ he)

/-- The work of a table with requester `r` replaced: its new work stands for the one it had. -/
theorem tableWork_insertReq {t : List (Nat × Requester)} (ht : t.Pairwise fun e e' => e.1 < e'.1) {q : Requester}
    (hq : q ≠ Requester.idle) (r : Nat) :
    tableWork (insertReq r q t) + workOf (lookupReq t r) = tableWork t + workOf q := by
  have hidle : workOf Requester.idle = 0 := rfl
  induction t with
  | nil => simp [insertReq, hq, lookupReq, hidle]
  | cons e rest ih =>
    obtain ⟨k, p⟩ := e
    obtain ⟨hk, hrest⟩ := List.pairwise_cons.1 ht
    rcases lt_trichotomy r k with hlt | rfl | hgt
    · have hno : lookupReq ((k, p) :: rest) r = Requester.idle :=
        lookupReq_idle_of_lt (List.forall_mem_cons.2 ⟨hlt, fun e he => hlt.trans (hk e he)⟩)
      rw [hno]
      simp only [insertReq, hq, hlt, if_true, if_false, tableWork_cons, hidle]
      omega
    · simp only [insertReq, hq, lt_irrefl, if_true, if_false, tableWork_cons, lookupReq]
      omega
    · have := ih hrest
      simp only [insertReq, hgt.not_gt, hgt.ne', hgt.ne, if_false, tableWork_cons, lookupReq]
      omega

/-! ### The work of the machine -/

/-- Every step uses up the head of the schedule, if there is one. -/
theorem machineStep_schedule {s t : State} (h : MachineStep s t) : t.schedule = s.schedule.tail := by
  cases h with
  | ended ht =>
    cases hs : s.schedule with
    | nil => rfl
    | cons u l => simp [turn_of_schedule_cons hs] at ht
  | env | void | illegal => simp
  | phase r q rest i t ht hq hd he hp => cases hp <;> simp

/-- With the schedule used up, an agent left to move has a request to move. -/
theorem turn_none_of_drain {s : State} (hw : TableWf s.requesters) (hs : s.schedule = [])
    (hm : movingRequest s = none) : s.turn = none := by
  have ht : s.turn = (firstActive s.requesters).map .run := by simp only [State.turn, hs]
  cases hf : firstActive s.requesters with
  | none => rw [ht, hf]; rfl
  | some r =>
    obtain ⟨q, hmem, hq⟩ := firstActive_some hf
    have hlook : s.requester r = q := lookupReq_of_mem hw.1 hmem
    simp [movingRequest, ht, hf, hlook, hq] at hm

/-- Every step but the end of the run takes at least one from the work. -/
theorem work_lt_of_step {s t : State} (h : Inv s) (hs : MachineStep s t) (hturn : s.turn ≠ none) : t.work < s.work := by
  obtain ⟨-, -, hw, -⟩ := h
  have hsched := machineStep_schedule hs
  rw [work_eq, work_eq, hsched, List.length_tail]
  rcases machineStep_requesters hs with ⟨hm, htab⟩ | ⟨r, reads, q', -, hq, hr, htab⟩
  · have := List.length_pos_iff.2 fun hnil => hturn (turn_none_of_drain hw hnil hm)
    rw [htab]
    omega
  · have hsum := tableWork_insertReq hw.1 hr.ne_idle r
    have hlt := hr.workOf_lt hq
    rw [htab]
    simp only [State.requester] at hlt
    omega

/-! ### The end of a run -/

/-- When no agent is left to move, the run has ended. -/
theorem finished_of_turn_none {s : State} (h : Inv s) (ht : s.turn = none) : Finished s := by
  have hs : s.schedule = [] := by
    cases hs : s.schedule with
    | nil => rfl
    | cons u l => simp [turn_of_schedule_cons hs] at ht
  have hf : firstActive s.requesters = none := by simpa [State.turn, hs] using ht
  refine ⟨hs, fun r => ?_⟩
  have hq : (s.requester r).queue = [] :=
    forall_lookup (P := fun q => q.queue = []) rfl (firstActive_none hf) r
  refine ⟨hq, ?_⟩
  by_contra hne
  obtain ⟨p, hp⟩ := Option.ne_none_iff_exists'.1 hne
  obtain ⟨req, rest, -, -, -, hq', -⟩ := inflight_request (inflightOK_lookup h r) hp
  simp [hq] at hq'

/-- A machine with no agent left stays as it is. -/
theorem runSteps_of_ended {s : State} (hl : s.cfg.legal = true) (ht : s.turn = none) (n : Nat) :
    runSteps n s = .next s := by
  induction n with
  | zero => rfl
  | succ n ih => rw [runSteps_succ (step_of_ended hl ht), ih]

/-- With no work left, no agent is left to move. -/
theorem turn_none_of_work {s : State} (h : Inv s) (hwork : s.work = 0) : s.turn = none := by
  by_contra hne
  obtain ⟨t, -, hs⟩ := step_of_inv h
  have := work_lt_of_step h hs hne
  omega

theorem runSteps_ends {n : Nat} {s : State} (h : Inv s) (hn : s.work ≤ n) :
    ∃ t, runSteps n s = .next t ∧ Inv t ∧ t.turn = none := by
  induction n generalizing s with
  | zero => exact ⟨s, rfl, h, turn_none_of_work h (by omega)⟩
  | succ n ih =>
    by_cases hturn : s.turn = none
    · exact ⟨s, runSteps_of_ended h.1 hturn _, h, hturn⟩
    · obtain ⟨u, hu, hs⟩ := step_of_inv h
      have hlt := work_lt_of_step h hs hturn
      rw [runSteps_succ hu]
      exact ih (step_inv h hu) (by omega)

/-! ### The statement -/

/-- Settles O59: `work` many steps use up the work, and then no agent is left to move. -/
theorem everyRunEnds : Obligations.EveryRunEnds := by
  intro s h
  obtain ⟨t, ht, hinv, hturn⟩ := runSteps_ends h le_rfl
  exact ⟨t, ht, finished_of_turn_none hinv hturn, step_of_ended hinv.1 hturn⟩

end Sys2Proof.Proofs
end

section
/-! SUPPORT. The priority file over a step and over a run (10_state.md R31 to R33, 42_priority_ops.md R126, 20_memory.md
R62), and the start of a run (40_dispatcher.md R91). -/

namespace Sys2Proof.Proofs

open Sys2Proof Sys2Proof.Machine Sys2Proof.Laws

/-! ### Which phase writes the file -/

/-- What `P2` of the record `p` leaves of the state. -/
def afterP2 (s : State) (p : PrioSet) : State :=
  setInflight (some { p with next := .p3 })
    { s with pri := setPriWord s.pri p.w (mergeLane p.c p.lane p.byte &&& 0xF0F0F0F0#32) }

theorem phaseStep_pri {s t : State} {i : Instr} (h : PhaseStep s i t) (hc : t.pri ≠ s.pri) :
    ∃ p, isPrioSet i = true ∧ s.me.inflight = some p ∧ p.next = .p2 ∧ p.w < priWords s.cfg ∧ t = afterP2 s p := by
  cases h with
  | p2 p hi hp hn hw => exact ⟨p, hi, hp, hn, hw, rfl⟩
  | fail | enable | disable | setPend | clearPend | getPend | getPrio | p1 | p3 => exact absurd rfl hc

/-- A step that changes the file is `P2` of the moving requester's priority set. -/
theorem step_pri {s t : State} (h : Inv s) (ht : step s = .next t) (hc : t.pri ≠ s.pri) :
    ∃ r q rest p, s.turn = some (.run r) ∧ (s.requester r).queue = q :: rest ∧ setsPriority q = true ∧
      (s.requester r).inflight = some p ∧ p.next = .p2 ∧ p.w < priWords s.cfg ∧ t = afterP2 (s.beginRun r) p := by
  obtain ⟨r, q, rest, i, htr, hq, hd, hp⟩ := runsPhase_of_changed (machineStep_of_inv h ht) (.inr (.inl hc))
  obtain ⟨p, hi, hif, hn, hw, rfl⟩ := phaseStep_pri hp hc
  exact ⟨r, q, rest, p, htr, hq, by simp only [setsPriority, hd, hi], hif, hn, hw, rfl⟩

/-! ### The start of a run -/

theorem priWf_resetFrom (cfg : Config) (d : ResetDraw) : PriWf (State.resetFrom cfg d) := by
  have hlow : ∀ n : BitVec 4, (n ++ 0#4) &&& 0x0F#8 = 0#8 := by decide
  refine ⟨resetFrom_pri_length cfg d, fun b hb => ?_⟩
  obtain ⟨k, -, rfl⟩ := List.mem_map.1 hb
  exact hlow _

/-- An entry of the loaded table: a number from `n` on, with a program and no record. -/
theorem loadPrograms_entry {programs : List (List Request)} {n : Nat} {e : Nat × Requester}
    (h : e ∈ loadPrograms n programs) : n ≤ e.1 ∧ e.2.queue ≠ [] ∧ e.2.inflight = none := by
  induction programs generalizing n with
  | nil => cases h
  | cons p rest ih =>
    have later : e ∈ loadPrograms (n + 1) rest → n ≤ e.1 ∧ e.2.queue ≠ [] ∧ e.2.inflight = none := fun hm =>
      (ih hm).imp_left Nat.le_of_succ_le
    simp only [loadPrograms] at h
    split at h
    · exact later h
    · next hp =>
      rcases List.mem_cons.1 h with rfl | h
      · exact ⟨le_rfl, by simpa using hp, rfl⟩
      · exact later h

theorem loadPrograms_wf (programs : List (List Request)) (n : Nat) : TableWf (loadPrograms n programs) := by
  refine ⟨?_, fun e he hidle => (loadPrograms_entry he).2.1 (by rw [hidle]; rfl)⟩
  induction programs generalizing n with
  | nil => exact .nil
  | cons p rest ih =>
    simp only [loadPrograms]
    split
    · exact ih (n + 1)
    · exact List.pairwise_cons.2 ⟨fun e he => (loadPrograms_entry he).1, ih (n + 1)⟩

theorem inv_startRun {cfg : Config} (h : cfg.legal = true) (d : ResetDraw) (programs : List (List Request))
    (schedule : List Turn) : Inv (startRun cfg d programs schedule) := by
  have hnone : ∀ e ∈ loadPrograms 0 programs, e.2.inflight = none := fun e he => (loadPrograms_entry he).2.2
  exact ⟨h, priWf_resetFrom cfg d, loadPrograms_wf programs 0, fun e he => inflightOK_of_none (hnone e he),
    fun e he => copyOK_of_none (hnone e he)⟩

/-! ### The statements -/

/-- Settles O50: the written word is the merged one, and the record goes on to `P3`. -/
theorem priorityFileWrittenOnlyInP2 : Obligations.PriorityFileWrittenOnlyInP2 := by
  intro s t h ht hc
  obtain ⟨r, q, rest, p, htr, hq, hset, hp, hn, hw, rfl⟩ := step_pri h ht hc
  refine ⟨r, q, rest, p, htr, hq, hset, hp, hn, ?_, priWord_set h.2.1 hw _, fun w hne => priWord_set_other h.2.1 hw _ hne⟩
  exact congrArg Requester.inflight (setInflight_requester_cur _ _)

/-- Settles O51: `P2` writes back such a byte as its copy shows it, which the invariant says is as the file has it. -/
theorem unreachableBytesNeverChange : Obligations.UnreachableBytesNeverChange := by
  refine ⟨fun s t h ht k hk => ?_, fun cfg id hid => slot_reachable hid⟩
  by_cases hc : t.pri = s.pri
  · simp only [State.priByte, hc]
  · obtain ⟨r, q, rest, p, htr, hq, -, hp, -, hw, rfl⟩ := step_pri h ht hc
    exact (fileKept_p2 (s := s.beginRun r) h hp hw).2 k hk

/-- Settles O43: every file drawn at reset has its form, and no loaded requester has a record. -/
theorem invariantAtEveryStart : Obligations.InvariantAtEveryStart :=
  fun _ d programs schedule h => inv_startRun h d programs schedule

/-- Settles O42: the reset state is the start of a run with no requests. -/
theorem invariantAtReset : Obligations.InvariantAtReset :=
  inv_startRun (cfg := Config.initial) (by decide) ResetDraw.zero [] []

/-- Settles O52: the invariant holds along the run; a write masks the low nibbles first. -/
theorem lowNibblesStayZero : Obligations.LowNibblesStayZero := by
  have hlow : ∀ b : Byte, b &&& 0x0F#8 = 0#8 → b.extractLsb' 0 4 = 0#4 := by decide
  refine ⟨fun cfg d programs schedule n t hl ht => ?_, fun s w v v' hl hw hv => ?_⟩
  · obtain ⟨-, hwf, -⟩ := runSteps_inv (inv_startRun hl d programs schedule) ht
    exact ⟨fun k => hlow _ (priByte_low hwf k), priWord_low hwf⟩
  · rw [csrWrite_ipr hl hw, csrWrite_ipr hl hw, hv]

end Sys2Proof.Proofs
end

section
/-! SUPPORT. Under the caller contract a priority set is atomic (70_reset_and_hazards.md R179). Between the phases of `r`'s
set nothing that the set depends on changes, so each phase begins where the one before it ended. -/

namespace Sys2Proof.Proofs

open Sys2Proof Sys2Proof.Machine Sys2Proof.Laws

/-! ### Steps between the phases -/

/-- What requester `r`'s priority set finds after steps under the contract as it left it. -/
def SetKept (r : Nat) (s t : State) : Prop :=
  t.cfg = s.cfg ∧ t.pri = s.pri ∧ t.requester r = s.requester r

theorem breaksContract_of_setsPriority {s : State} {r r' : Nat} {q : Request} {rest : List Request}
    (ht : s.turn = some (.run r')) (hq : (s.requester r').queue = q :: rest) (hr : r' ≠ r)
    (hset : setsPriority q = true) : breaksContract r s = true := by
  simp [breaksContract, movingRequest, ht, hq, hr, hset]

/-- A step that is not `r`'s and no phase of another priority set. -/
theorem step_setKept {s t : State} {r : Nat} (h : Inv s) (ht : step s = .next t) (hr : s.turn ≠ some (.run r))
    (hb : breaksContract r s = false) : SetKept r s t := by
  refine ⟨step_cfg ht, ?_, machineStep_requester_other (machineStep_of_inv h ht) hr⟩
  by_contra hc
  obtain ⟨r', q, rest, p, htr, hq, hset, -⟩ := step_pri h ht hc
  have hne : r' ≠ r := by rintro rfl; exact hr htr
  simp [breaksContract_of_setsPriority htr hq hne hset] at hb

theorem runSteps_setKept {n : Nat} {s t : State} {r : Nat} (h : Inv s) (hu : Undisturbed r n s)
    (ht : runSteps n s = .next t) : Inv t ∧ SetKept r s t := by
  induction n generalizing s with
  | zero => cases ht; exact ⟨h, rfl, rfl, rfl⟩
  | succ n ih =>
    obtain ⟨u, hstep, -⟩ := step_of_inv h
    obtain ⟨hr, hb, hu⟩ := hu
    rw [runSteps_succ hstep] at ht
    obtain ⟨hinv, hcfg, hpri, hreq⟩ := ih (step_inv h hstep) (hu u hstep) ht
    obtain ⟨hcfg', hpri', hreq'⟩ := step_setKept h hstep hr hb
    exact ⟨hinv, hcfg.trans hcfg', hpri.trans hpri', hreq.trans hreq'⟩

/-! ### The phases, as steps of the machine -/

section
variable {s t : State} {r : Nat} {q : Request} {rest : List Request} {i : Instr}
variable (hl : s.cfg.legal = true) (htr : s.turn = some (.run r)) (hq : (s.requester r).queue = q :: rest)
variable (hd : decode q = .ok i) (ht : step s = .next t)
include hl htr hq hd ht

/-- The step of a requester with the turn is the phase that its outstanding request is in. -/
theorem eq_of_phaseStep {u : State} (hp : PhaseStep (s.beginRun r) i u) : t = u := by
  rw [step_of_decoded hl htr hq hd, exec_of_phaseStep (s := s.beginRun r) hl hp] at ht
  exact (Host.Outcome.next.inj ht).symm

theorem step_p1 {id : Word} {byte : Byte} {enc : Word} (ha : prioArgs s.cfg i = some (id, byte, enc))
    (hn : (s.requester r).inflight = none) :
    t.cfg = s.cfg ∧ t.pri = s.pri ∧ t.requester r = { s.requester r with
      inflight := some ⟨pword id, plane s.cfg.prioIndexMode id, byte, enc, .p2, s.priWord (pword id)⟩ } := by
  rw [eq_of_phaseStep hl htr hq hd ht (.p1 id byte enc (isPrioSet_of_prioArgs ha) hn ha)]
  exact ⟨rfl, rfl, setInflight_requester_cur (s.beginRun r) _⟩

theorem step_p2 {p : PrioSet} (hi : isPrioSet i = true) (hp : (s.requester r).inflight = some p) (hn : p.next = .p2)
    (hw : p.w < priWords s.cfg) :
    t.cfg = s.cfg ∧ t.pri = setPriWord s.pri p.w (mergeLane p.c p.lane p.byte &&& 0xF0F0F0F0#32) ∧
      t.requester r = { s.requester r with inflight := some { p with next := .p3 } } := by
  rw [eq_of_phaseStep hl htr hq hd ht (.p2 p hi hp hn hw)]
  exact ⟨rfl, rfl, setInflight_requester_cur _ _⟩

theorem step_p3 {p : PrioSet} (hi : isPrioSet i = true) (hp : (s.requester r).inflight = some p) (hn : p.next = .p3) :
    t.pri = s.pri ∧ t.scr = p.enc ∧
      ∃ d, t.requester r = (s.requester r).receive ⟨true, false, d⟩ none := by
  rw [eq_of_phaseStep hl htr hq hd ht (.p3 p hi hp hn)]
  exact ⟨rfl, rfl, _, respondOkClearing_requester_cur { s.beginRun r with scr := p.enc }⟩

end

/-! ### The statement -/

/-- Settles O54: `P2` finds the word as `P1` copied it, so it changes the one slot; `P3` finds the record of `P2`. -/
theorem contractMakesPrioritySetAtomic : Obligations.ContractMakesPrioritySetAtomic := by
  intro s s1 s2 s3 s4 t r m n q rest id byte enc h htr hq hn hargs h01 hu1 h12 htr2 h23 hu3 h34 htr4 h4t
  obtain ⟨i, hd, ha, hi⟩ := requestArgs_some hargs
  obtain ⟨hid, -, hlow⟩ := prioArgs_some ha
  have hw := pword_lt_priWords hid
  -- `P1`, and the first window
  obtain ⟨hcfg1, hpri1, hreq1⟩ := step_p1 h.1 htr hq hd h01 ha hn
  obtain ⟨hinv2, hcfg2, hpri2, hreq2⟩ := runSteps_setKept (step_inv h h01) hu1 h12
  have hme2 := hreq2.trans hreq1
  have hq2 : (s2.requester r).queue = q :: rest := (congrArg Requester.queue hme2).trans hq
  have hw2 : pword id < priWords s2.cfg := by rwa [hcfg2, hcfg1]
  -- `P2`, and the second window
  obtain ⟨hcfg3, hpri3, hreq3⟩ := step_p2 hinv2.1 htr2 hq2 hd h23 hi (congrArg Requester.inflight hme2) rfl hw2
  obtain ⟨hinv4, hcfg4, hpri4, hreq4⟩ := runSteps_setKept (step_inv hinv2 h23) hu3 h34
  have hme4 := hreq4.trans hreq3
  have hq4 : (s4.requester r).queue = q :: rest := (congrArg Requester.queue hme4).trans hq2
  -- `P3`
  obtain ⟨hpri, hscr, d, hreq⟩ := step_p3 hinv4.1 htr4 hq4 hd h4t hi (congrArg Requester.inflight hme4) rfl
  have hout : (t.requester r).responses = (s.requester r).responses ++ [⟨true, false, d⟩] := by
    simp [hreq, hme4, hme2, Requester.receive]
  refine ⟨fun k => ?_, hscr, by rw [hreq]; rfl, by rw [hreq, Requester.receive, hq4]; rfl, d, hout⟩
  rw [← priByte_merged h.2.1 hw hlow]
  simp only [State.priByte, hpri, hpri4, hpri3, hpri2, hpri1]

end Sys2Proof.Proofs
end

section
/-! SUPPORT. The encoder and the decoder undo each other (30_encoding.md R66 to R73). Both directions rest on one fact: a
control word with its reserved bits zero is made of its `OV` and its `OP`. -/

namespace Sys2Proof.Proofs

open Sys2Proof Sys2Proof.Machine Sys2Proof.Laws

/-! ### The encoder's control word -/

theorem encodes_its_opcode (i : Instr) : EncodesItsOpcode.Statement i := by
  cases i <;> exact ctrlWord_shape rfl

theorem encode_opMask (i : Instr) : (encode i).ctrl &&& 0xFFFFFFF7#32 = i.opcode.setWidth 32 := by
  obtain ⟨hc, hop⟩ := encodes_its_opcode i
  rw [ctrl_eq_ctrlWord hc, ctrlWord_opMask, hop]

/-- The opcode selects the operation, and each operand is read from the word it was put in. -/
theorem decode_encode (i : Instr) : decode (encode i) = .ok i := by
  rw [decode_of_mask _ _ (encode_opMask i)]
  cases i <;> simp [Instr.opcode, encode, Request.ov, ctrlWord_bit3, -BitVec.getLsbD_eq_getElem]

/-! ### The used fields of a request -/

/-- Setting the unused fields to zero, where the reserved bits are: `OV` stays where the operation uses it. -/
theorem keepUsed_eq {q : Request} (h : q.ctrlOK = true) {op : BitVec 3} (hop : q.ctrl.extractLsb' 0 3 = op) :
    keepUsed q = ⟨ctrlWord (usesOV op && q.ov) op, q.id, if usesA op then q.a else 0#32,
      if usesB op then q.b else 0#32⟩ := by
  have hctrl : q.ctrl = ctrlWord q.ov op := hop ▸ ctrl_eq_ctrlWord h
  have hmask : q.ctrl &&& (if usesOV op then 0xFFFFFFFF#32 else 0xFFFFFFF7#32) = ctrlWord (usesOV op && q.ov) op := by
    rw [hctrl]
    cases usesOV op with
    | true => exact ctrlWord_allOnes _ op
    | false => exact (ctrlWord_opMask _ op).trans (ctrlWord_noOV op).symm
  simp only [keepUsed, hop, hmask]

/-- For each of the eight values of `OP`, the encoder puts back the operands that the decoder reads. -/
theorem encode_operation {q : Request} (h : q.ctrlOK = true) : encode q.operation = keepUsed q := by
  cases h2 : q.ctrl.getLsbD 2 <;> cases h1 : q.ctrl.getLsbD 1 <;> cases h0 : q.ctrl.getLsbD 0 <;>
    rw [keepUsed_eq h (op_bits q.ctrl _ _ _ h2 h1 h0)] <;> simp only [Request.operation, h2, h1, h0] <;> rfl

theorem encode_of_decode {q : Request} {i : Instr} (h : decode q = .ok i) : encode i = keepUsed q := by
  obtain ⟨hc, rfl⟩ := decode_ok h
  exact encode_operation hc

/-! ### The masks of R73 -/

theorem decode_error_iff (q : Request) : decode q = .error .reservedBits ↔ q.ctrlOK = false := by
  simp only [decode]
  cases q.ctrlOK <;> simp

theorem opMask_iff (q : Request) (n : BitVec 3) :
    q.ctrl &&& 0xFFFFFFF7#32 = n.setWidth 32 ↔ q.ctrlOK = true ∧ q.ctrl.extractLsb' 0 3 = n := by
  refine ⟨opcode_of_mask, ?_⟩
  rintro ⟨hc, rfl⟩
  exact (congrArg (· &&& 0xFFFFFFF7#32) (ctrl_eq_ctrlWord hc)).trans (ctrlWord_opMask _ _)

/-! ### The statements -/

/-- Settles O2: the encoding's control word holds the opcode, and its other words the operands. -/
theorem decodeOfEncode : Obligations.DecodeOfEncode :=
  fun i _ => ⟨decode_encode i, (encodes_its_opcode i).1⟩

/-- Settles O3: value by value of `OP`. -/
theorem encodeOfDecode : Obligations.EncodeOfDecode :=
  fun _ _ h => encode_of_decode h

/-- Settles O5: the masks read off `RSV` and `OP`, and what decodes has the opcode in `OP`. -/
theorem maskSelectsOperation : Obligations.MaskSelectsOperation := by
  have hop : ∀ {q : Request} {i : Instr}, decode q = .ok i → i.opcode = q.ctrl.extractLsb' 0 3 := fun h => by
    rw [(decode_ok h).2, opcode_operation]
  refine fun q => ⟨?illegal, fun n => ?selected, fun i h => hop h⟩
  case illegal => rw [decode_error_iff, Ne, rsvMask_iff, Bool.not_eq_true]
  case selected =>
    rw [opMask_iff]
    constructor
    · rintro ⟨i, hd, rfl⟩
      exact ⟨(decode_ok hd).1, (hop hd).symm⟩
    · rintro ⟨hc, rfl⟩
      exact ⟨q.operation, if_pos hc, opcode_operation q⟩

end Sys2Proof.Proofs
end

section
/-! SUPPORT. Requests as text (30_encoding.md R75, R77): a written line is its mnemonic and its operands, each read back as
it was written. -/

namespace Sys2Proof.Proofs

open Sys2Proof Sys2Proof.Machine Sys2Proof.Laws

/-! ### A line of operands -/

/-- Operands as a line writes them: a comma and a blank between them. -/
def operandText (a : List Char) : List (List Char) → List Char
  | [] => a
  | b :: rest => a ++ ',' :: ' ' :: operandText b rest

/-- A text that an operand can be: not empty, without blanks, commas and comments. -/
def Operand (a : List Char) : Prop :=
  a ≠ [] ∧ ∀ c ∈ a, Plain c

theorem operand_showNumber (n : Nat) : Operand (showNumber n) :=
  ⟨List.cons_ne_nil _ _, plain_showNumber n⟩

theorem operand_null : Operand "null".toList := by
  simp [Operand, Plain, isBlank]

section
variable {a : List Char} (ha : Operand a) {rest : List (List Char)} (hr : ∀ b ∈ rest, Operand b)
include ha hr

/-- The commas part the operands again, and the blanks before them are trimmed. -/
theorem split_operandText : (splitCommas (' ' :: operandText a rest)).map trimBlanks = a :: rest := by
  induction rest generalizing a with
  | nil =>
    have hcomma : ∀ c ∈ ' ' :: a, c ≠ ',' := List.forall_mem_cons.2 ⟨by decide, fun c hc => (ha.2 c hc).2.2⟩
    rw [operandText, splitCommas_plain _ hcomma, List.map_singleton, trimBlanks_blank a fun c hc => (ha.2 c hc).1]
  | cons b rest ih =>
    obtain ⟨hb, hrest⟩ := List.forall_mem_cons.1 hr
    have hcomma : ∀ c ∈ ' ' :: a, c ≠ ',' := List.forall_mem_cons.2 ⟨by decide, fun c hc => (ha.2 c hc).2.2⟩
    rw [operandText, ← List.cons_append, splitCommas_cons _ _ hcomma, List.map_cons, ih hb hrest,
      trimBlanks_blank a fun c hc => (ha.2 c hc).1]

theorem operandText_no_comment : ∀ c ∈ operandText a rest, c ≠ ';' := by
  induction rest generalizing a with
  | nil => exact fun c hc => (ha.2 c hc).2.1
  | cons b rest ih =>
    obtain ⟨hb, hrest⟩ := List.forall_mem_cons.1 hr
    intro c hc
    simp only [operandText, List.mem_append, List.mem_cons] at hc
    rcases hc with hc | rfl | rfl | hc
    · exact (ha.2 c hc).2.1
    · decide
    · decide
    · exact ih hb hrest c hc

theorem operandText_last : ∃ l c, operandText a rest = l ++ [c] ∧ isBlank c = false := by
  induction rest generalizing a with
  | nil => exact ⟨_, _, (List.dropLast_append_getLast ha.1).symm, (ha.2 _ (List.getLast_mem ha.1)).1⟩
  | cons b rest ih =>
    obtain ⟨hb, hrest⟩ := List.forall_mem_cons.1 hr
    obtain ⟨l, c, hl, hc⟩ := ih hb hrest
    exact ⟨a ++ ',' :: ' ' :: l, c, by rw [operandText, hl]; simp, hc⟩

/-- A mnemonic, a blank and operands are parsed as these operands of that mnemonic. -/
theorem parseLine_operandText {name : List Char} (hn : Operand name) :
    parseLine (name ++ ' ' :: operandText a rest) = parseOperands name (a :: rest) := by
  rw [parseLine_parts name _ hn.2 hn.1 (operandText_no_comment ha hr) (operandText_last ha hr), split_operandText ha hr]

end

theorem operand_mnemonic (i : Instr) : Operand (mnemonicOf i).toList := by
  cases i <;> simp [mnemonicOf, Operand, Plain, isBlank]

/-! ### The operands of each line -/

/-- The operands of a line, as it writes them. -/
def operandsOf : TextReq → List Char × List (List Char)
  | .enableIRQ id | .disableIRQ id | .setPendingIRQ id | .clearPendingIRQ id => (showNumber id, [])
  | .getPendingIRQ id null | .getPriority id null => (showNumber id, if null then ["null".toList] else [])
  | .setPriorityRaw id p => (showNumber id, [showNumber p])
  | .setPriorityGrouped id g s => (showNumber id, [showNumber g, showNumber s])

theorem operandsOf_operand (t : TextReq) : Operand (operandsOf t).1 ∧ ∀ b ∈ (operandsOf t).2, Operand b := by
  cases t with
  | enableIRQ | disableIRQ | setPendingIRQ | clearPendingIRQ => exact ⟨operand_showNumber _, by simp [operandsOf]⟩
  | getPendingIRQ id null | getPriority id null =>
    cases null with
    | false => exact ⟨operand_showNumber _, by simp [operandsOf]⟩
    | true => exact ⟨operand_showNumber _, List.forall_mem_singleton.2 operand_null⟩
  | setPriorityRaw => exact ⟨operand_showNumber _, List.forall_mem_singleton.2 (operand_showNumber _)⟩
  | setPriorityGrouped =>
    exact ⟨operand_showNumber _, List.forall_mem_cons.2 ⟨operand_showNumber _,
      List.forall_mem_singleton.2 (operand_showNumber _)⟩⟩

theorem showLine_eq (t : TextReq) :
    showLine t = (mnemonicOf (textInstr t)).toList ++ ' ' :: operandText (operandsOf t).1 (operandsOf t).2 := by
  cases t with
  | enableIRQ | disableIRQ | setPendingIRQ | clearPendingIRQ | setPriorityRaw => rfl
  | getPendingIRQ id null | getPriority id null =>
    cases null with
    | false => exact congrArg (_ ++ ' ' :: ·) (List.append_nil (showNumber id))
    | true => rfl
  | setPriorityGrouped => rfl

/-- Each mnemonic names its own operation. -/
theorem parseOperands_operandsOf {t : TextReq} (h : t.wellFormed = true) :
    parseOperands (mnemonicOf (textInstr t)).toList ((operandsOf t).1 :: (operandsOf t).2) = some t := by
  have hnum : ∀ {n : Nat}, fitsWord n = true → parseNumber (showNumber n) = some n := fun hf =>
    parseNumber_showNumber _ (of_decide_eq_true hf)
  cases t with
  | enableIRQ | disableIRQ | setPendingIRQ | clearPendingIRQ =>
    simp [textInstr, mnemonicOf, operandsOf, parseOperands, parse1, hnum h]
  | getPendingIRQ id null | getPriority id null =>
    cases null <;> simp [textInstr, mnemonicOf, operandsOf, parseOperands, parseOut, hnum h]
  | setPriorityRaw id p =>
    obtain ⟨hid, hp⟩ := Bool.and_eq_true_iff.1 h
    simp [textInstr, mnemonicOf, operandsOf, parseOperands, parse2, hnum hid, hnum hp]
  | setPriorityGrouped id g s =>
    obtain ⟨hidg, hs⟩ := Bool.and_eq_true_iff.1 h
    obtain ⟨hid, hg⟩ := Bool.and_eq_true_iff.1 hidg
    simp [textInstr, mnemonicOf, operandsOf, parseOperands, parse3, hnum hid, hnum hg, hnum hs]

theorem parseLine_showLine {t : TextReq} (h : t.wellFormed = true) : parseLine (showLine t) = some t := by
  obtain ⟨ha, hr⟩ := operandsOf_operand t
  rw [showLine_eq, parseLine_operandText ha hr (operand_mnemonic _), parseOperands_operandsOf h]

/-! ### The statements -/

/-- Settles O7: the line is read back operand by operand, and its request is the encoding of its operation. -/
theorem textLineRoundTrip : Obligations.TextLineRoundTrip := by
  intro t h
  have hd := decode_encode (textInstr t)
  refine ⟨parseLine_showLine h, _, if_pos h, hd, (encode_of_decode hd).symm, ?_⟩
  cases t <;> exact ctrlWord_bit3 _ _

/-- Settles O1: the examples, word by word and line by line. -/
theorem specEncodingExamples : Obligations.SpecEncodingExamples := by
  have hrsv : (0x00000010#32 : Word).extractLsb' 4 28 ≠ 0#28 := by decide
  refine ⟨⟨by decide, by decide, by decide, by decide, by decide, by decide, fun id a b => ?_⟩, by decide⟩
  exact decode_of_rsv_ne_zero (q := ⟨0x00000010#32, id, a, b⟩) hrsv

end Sys2Proof.Proofs
end

section
/-! SUPPORT. The address map, the reads, and writes after writes (20_memory.md R46 to R55; 10_state.md R31; 40_dispatcher.md
R84 to R86). -/

namespace Sys2Proof.Proofs

open Sys2Proof Sys2Proof.Machine Sys2Proof.Laws

/-! ### The addresses of the map (R46, R48, R50) -/

/-- Each register of the map is a word of one of the six ranges. -/
theorem addrOf_in_range {cfg : Config} {c : Csr} (h : inMap cfg c = true) :
    ∃ r ∈ csrRanges cfg, ∃ j, j < r.2 ∧ addrOf cfg c = r.1 + 4 * j := by
  cases c with
  | iser b => exact ⟨(cfg.iserBase.toNat, bankWords), by simp [csrRanges], b, of_decide_eq_true h, rfl⟩
  | icer b => exact ⟨(cfg.icerBase.toNat, bankWords), by simp [csrRanges], b, of_decide_eq_true h, rfl⟩
  | ispr b => exact ⟨(cfg.isprBase.toNat, bankWords), by simp [csrRanges], b, of_decide_eq_true h, rfl⟩
  | icpr b => exact ⟨(cfg.icprBase.toNat, bankWords), by simp [csrRanges], b, of_decide_eq_true h, rfl⟩
  | ipr w => exact ⟨(cfg.iprBase.toNat, priWords cfg), by simp [csrRanges], w, of_decide_eq_true h, rfl⟩
  | scr => exact ⟨(cfg.scrAddr.toNat, 1), by simp [csrRanges], 0, Nat.one_pos, rfl⟩

/-- A word of an aligned range that fits is aligned and fits. -/
theorem addrOf_aligned_and_fits {cfg : Config} (hl : cfg.legal = true) {c : Csr} (hc : inMap cfg c = true) :
    addrOf cfg c % 4 = 0 ∧ addrOf cfg c + 4 ≤ 2 ^ 32 := by
  obtain ⟨-, haligned, hfit, -⟩ := legal_ranges hl
  obtain ⟨r, hr, j, hj, ha⟩ := addrOf_in_range hc
  have := haligned r hr
  have := hfit r hr
  omega

/-- The set and clear views of the word `b` of the two 96-bit vectors. -/
def bankViews (b : Nat) : List Csr :=
  [.iser b, .icer b, .ispr b, .icpr b]

theorem inMap_of_mem_bankViews (cfg : Config) {b : Nat} (hb : b < 3) {c : Csr} (hc : c ∈ bankViews b) :
    inMap cfg c = true := by
  simp only [bankViews, List.mem_cons, List.not_mem_nil, or_false] at hc
  rcases hc with rfl | rfl | rfl | rfl <;> exact decide_eq_true hb

/-- An address of one of the four groups is that of a view. -/
theorem view_of_addr {cfg : Config} {b a : Nat}
    (h : a ∈ [iserAddr cfg b, icerAddr cfg b, isprAddr cfg b, icprAddr cfg b]) :
    ∃ c ∈ bankViews b, addrOf cfg c = a :=
  List.mem_map.1 (show a ∈ (bankViews b).map (addrOf cfg) from h)

/-! ### Writes after writes (R55) -/

/-- The last write of a word of a 96-bit vector is the one that stays. -/
theorem setLineWord_setLineWord (v : Lines) {b : Nat} (hb : b < 3) (x y : Word) :
    setLineWord (setLineWord v b x) b y = setLineWord v b y :=
  lines_ext fun b' hb' => by
    rw [lineWord_setLineWord _ hb hb', lineWord_setLineWord _ hb hb', lineWord_setLineWord _ hb hb']
    split <;> rfl

/-- A function of a word that is idempotent, written to that word twice. -/
theorem setLineWord_twice (v : Lines) {b : Nat} (hb : b < 3) {f : Word → Word} (hf : ∀ x, f (f x) = f x) :
    setLineWord (setLineWord v b (f (lineWord v b))) b (f (lineWord (setLineWord v b (f (lineWord v b))) b)) =
      setLineWord v b (f (lineWord v b)) := by
  rw [(lineWord_setLineWord_frame v hb _).1, setLineWord_setLineWord v hb, hf]

theorem or_or_self_right {n : Nat} (x v : BitVec n) : x ||| v ||| v = x ||| v := by
  rw [BitVec.or_assoc, BitVec.or_self]

theorem and_and_self_right {n : Nat} (x v : BitVec n) : x &&& v &&& v = x &&& v := by
  rw [BitVec.and_assoc, BitVec.and_self]

/-- A set or clear view written twice with the same value: a union or an intersection that is made again. -/
theorem writeReg_twice (s : State) (v : Word) {b : Nat} (hb : b < 3) {c : Csr} (hc : c ∈ bankViews b) :
    writeReg (writeReg s v c) v c = writeReg s v c := by
  have hset := fun x : Lines => setLineWord_twice x hb (f := (· ||| v)) fun y => or_or_self_right y v
  have hclear := fun x : Lines => setLineWord_twice x hb (f := (· &&& ~~~v)) fun y => and_and_self_right y (~~~v)
  simp only [bankViews, List.mem_cons, List.not_mem_nil, or_false] at hc
  rcases hc with rfl | rfl | rfl | rfl
  · exact congrArg (fun en => { s with en := en }) (hset s.en)
  · exact congrArg (fun en => { s with en := en }) (hclear s.en)
  · exact congrArg (fun pend => { s with pend := pend }) (hset s.pend)
  · exact congrArg (fun pend => { s with pend := pend }) (hclear s.pend)

/-- A write after another one, at a register's address: no write moves a register. -/
theorem csrWrite_writeReg {s : State} (hl : s.cfg.legal = true) {c : Csr} (hc : inMap s.cfg c = true) (v v' : Word) :
    csrWrite (writeReg s v c) (addrOf s.cfg c) v' = some (writeReg (writeReg s v c) v' c) := by
  have hcfg := writeReg_cfg s v c
  have h := csrWrite_addrOf (s := writeReg s v c) (hcfg.symm ▸ hl) (c := c) (hcfg.symm ▸ hc) v'
  rwa [hcfg] at h

/-- A write that replaces the one before, at the register's address. -/
theorem csrWrite_replaces {s : State} (hl : s.cfg.legal = true) {c : Csr} (hc : inMap s.cfg c = true) {v v' : Word}
    (h : writeReg (writeReg s v c) v' c = writeReg s v' c) :
    ∃ t, csrWrite s (addrOf s.cfg c) v = some t ∧
      csrWrite t (addrOf s.cfg c) v' = csrWrite s (addrOf s.cfg c) v' :=
  ⟨_, csrWrite_addrOf hl hc v, by rw [csrWrite_writeReg hl hc, h, csrWrite_addrOf hl hc v']⟩

theorem writeReg_ipr_replaces (s : State) (v v' : Word) (w : Nat) :
    writeReg (writeReg s v (.ipr w)) v' (.ipr w) = writeReg s v' (.ipr w) :=
  congrArg (fun pri => { s with pri := pri }) (setPriWord_setPriWord s.pri w _ _)

/-! ### The slots of ids (R84, R86) -/

theorem slot_faithful (id : Word) : slot .faithful id = 4 * (id.toNat / 4) := rfl

/-- In `Corrected` mode the word and the lane of an id make up the id. -/
theorem slot_corrected (id : Word) : slot .corrected id = id.toNat := by
  simp only [slot, pword, plane]
  omega

/-! ### The statements -/

/-- Settles O8: a register's address reaches that register alone, and what an address reaches has it. -/
theorem addressMapExact : Obligations.AddressMapExact := by
  intro cfg hl
  refine ⟨fun c hc => ⟨csrAt_addrOf hl hc, addrOf_aligned_and_fits hl hc⟩, fun a c h => (addrOf_csrAt h).symm,
    fun c c' hc hc' h => ?_⟩
  have hsame := csrAt_addrOf hl hc
  rw [h, csrAt_addrOf hl hc'] at hsame
  exact (Option.some.inj hsame).symm

/-- Settles O9: each address reads its own register. -/
theorem csrReadTable : Obligations.CsrReadTable := by
  intro s d hl hwf
  refine ⟨fun b hb => ?_, fun w hw => ⟨csrRead_ipr hl hw d, priWord_low hwf w⟩,
    csrRead_addrOf hl (c := .scr) rfl d⟩
  have reads : ∀ c ∈ bankViews b, csrRead s (addrOf s.cfg c) d = some (readReg s d c) := fun c hc =>
    csrRead_addrOf hl (inMap_of_mem_bankViews s.cfg hb hc) d
  exact ⟨reads (.iser b) (by simp [bankViews]), reads (.icer b) (by simp [bankViews]),
    reads (.ispr b) (by simp [bankViews]), reads (.icpr b) (by simp [bankViews])⟩

/-- Settles O11: the set and clear views are idempotent on their word, the plain stores forget the value before. -/
theorem repeatedWrites : Obligations.RepeatedWrites := by
  refine fun s hl => ⟨fun b v a hb ha => ?views, fun a v v' ha => ?stores, fun id hid => ?enable⟩
  case views =>
    obtain ⟨c, hc, rfl⟩ := view_of_addr ha
    have hin := inMap_of_mem_bankViews s.cfg hb hc
    exact ⟨_, csrWrite_addrOf hl hin v, by rw [csrWrite_writeReg hl hin, writeReg_twice s v hb hc]⟩
  case stores =>
    rcases ha with rfl | ⟨w, hw, rfl⟩
    · exact csrWrite_replaces hl (c := .scr) rfl rfl
    · exact csrWrite_replaces hl (c := .ipr w) (decide_eq_true hw) (writeReg_ipr_replaces s v v' w)
  case enable =>
    have h := exec_enableIRQ hl hid
    have h' := exec_enableIRQ (s := respondOk { s with en := s.en ||| BitVec.twoPow 96 id.toNat }) hl hid
    exact ⟨_, _, h, h', or_or_self_right s.en _, rfl, rfl, rfl⟩

/-- Settles O12: the lane of the word is the byte of the file, which stands at that address. -/
theorem priorityByteOrder : Obligations.PriorityByteOrder := by
  intro s w l d hl hw
  refine ⟨_, csrRead_ipr hl hw d, laneOf_priWord s w l, ?_⟩
  rw [State.iprByteAt, if_pos (by omega)]
  congr 2
  omega

/-- Settles O19: the formulas are the indexer's definitions; the bit fields are the quotient and the remainder by 4. -/
theorem priorityDecomposition : Obligations.PriorityDecomposition := by
  intro id
  have hword : pword id = (id.extractLsb' 2 30).toNat := by
    have := id.isLt
    rw [BitVec.extractLsb'_toNat, Nat.shiftRight_eq_div_pow, pword]
    omega
  have hlane : (plane .corrected id).val = (id.extractLsb' 0 2).toNat := by
    rw [BitVec.extractLsb'_toNat, Nat.shiftRight_zero]
    rfl
  exact ⟨rfl, hword, rfl, hlane, rfl, fun _ => rfl⟩

/-- Settles O20: the bank of an accepted id is one of three, and its priority word one of the file's. -/
theorem indexRanges : Obligations.IndexRanges := by
  refine fun cfg id hl => ⟨fun hid => ⟨Nat.le_of_lt_succ (bank_lt hid), fun f hf => ?views⟩, fun hid => ?prio⟩
  case views =>
    have ha := List.mem_map_of_mem (f := fun g : Config → Nat → Nat => g cfg (bank id)) hf
    obtain ⟨c, hc, haddr⟩ := view_of_addr ha
    rw [← haddr, csrAt_addrOf hl (inMap_of_mem_bankViews cfg (bank_lt hid) hc), Option.isSome_some]
  case prio =>
    have hw := pword_lt_priWords hid
    refine ⟨by simp only [pword]; omega, by simp only [priWords]; omega, ?_, by rwa [slot_corrected]⟩
    exact csrAt_addrOf hl (c := .ipr (pword id)) (decide_eq_true hw)

/-- Settles O21: the slot is the first byte of the word in `Faithful` mode, and the byte of the id itself in `Corrected`. -/
theorem slotsSharedOrDistinct : Obligations.SlotsSharedOrDistinct := by
  refine ⟨fun id id' h => ⟨slot_faithful id, ?shared⟩, fun id id' h => ?distinct, fun s id id' hl hm hid hid' h => ?answer⟩
  case shared => rw [slot_faithful, slot_faithful, h]
  case distinct =>
    rw [slot_corrected, slot_corrected] at h
    exact BitVec.eq_of_toNat_eq h
  case answer =>
    have hslot : slot s.cfg.prioIndexMode id' = slot s.cfg.prioIndexMode id := by
      rw [hm, slot_faithful, slot_faithful, h]
    have hexec := exec_getPriority hl hid'
    rw [hslot] at hexec
    exact ⟨_, _, exec_getPriority hl hid, answeredData_respondData s _, hexec⟩

end Sys2Proof.Proofs
end

section
/-! SUPPORT. The packer (42_priority_ops.md R121, R122, R125): the packed value is a number with the sub-priority as its
remainder and the group as its quotient by `2^SB`. -/

namespace Sys2Proof.Proofs

open Sys2Proof Sys2Proof.Machine Sys2Proof.Laws

/-- The group bits and the sub-priority bits are four in all (R120). -/
theorem two_pow_groupBits_mul (m : Mode) : 2 ^ groupBits m * 2 ^ subBits m = 16 := by
  cases m <;> rfl

theorem lt_of_le_maxGroup {m : Mode} {g : Nat} (h : g ≤ maxGroup m) : g < 2 ^ groupBits m :=
  Nat.lt_of_le_pred (Nat.two_pow_pos _) h

theorem lt_of_le_maxSub {m : Mode} {n : Nat} (h : n ≤ maxSub m) : n < 2 ^ subBits m :=
  Nat.lt_of_le_pred (Nat.two_pow_pos _) h

section
variable {m : Mode} {g s : Word} (hg : g.toNat ≤ maxGroup m) (hs : s.toNat ≤ maxSub m)
include hg

/-- The group and any remainder below `2^SB` stay within a nibble. -/
theorem packed_lt {n : Nat} (hn : n < 2 ^ subBits m) : g.toNat * 2 ^ subBits m + n < 16 := by
  calc g.toNat * 2 ^ subBits m + n
    _ < (g.toNat + 1) * 2 ^ subBits m := by rw [Nat.succ_mul]; omega
    _ ≤ 2 ^ groupBits m * 2 ^ subBits m := Nat.mul_le_mul_right _ (lt_of_le_maxGroup hg)
    _ = 16 := two_pow_groupBits_mul m

include hs

/-- The sub-priority lies below the shifted group, so their union is their sum. -/
theorem toNat_pack : (pack m g s).toNat = g.toNat * 2 ^ subBits m + s.toNat := by
  have hlt := packed_lt hg (lt_of_le_maxSub hs)
  have hshift : (g <<< groupShift m).toNat = 2 ^ subBits m * g.toNat := by
    rw [BitVec.toNat_shiftLeft, Nat.shiftLeft_eq, groupShift, Nat.mod_eq_of_lt (by omega), Nat.mul_comm]
  rw [pack, BitVec.toNat_or, hshift, Nat.or_comm, ← Nat.two_pow_add_eq_or_of_lt (lt_of_le_maxSub hs), Nat.mul_comm]

theorem toNat_pack_le : (pack m g s).toNat ≤ 15 := by
  rw [toNat_pack hg hs]
  exact Nat.le_of_lt_succ (packed_lt hg (lt_of_le_maxSub hs))

/-- The quotient by `2^SB` is the group. -/
theorem splitGroup_pack : splitGroup m (pack m g s) = g := by
  apply BitVec.eq_of_toNat_eq
  rw [splitGroup, BitVec.toNat_ushiftRight, Nat.shiftRight_eq_div_pow, toNat_pack hg hs, Nat.add_comm,
    Nat.add_mul_div_right _ _ (Nat.two_pow_pos _), Nat.div_eq_of_lt (lt_of_le_maxSub hs), Nat.zero_add]

/-- The remainder by `2^SB` is the sub-priority. -/
theorem splitSub_pack : splitSub m (pack m g s) = s := by
  have hmask : (BitVec.ofNat 32 (2 ^ subBits m - 1)).toNat = 2 ^ subBits m - 1 := by cases m <;> rfl
  apply BitVec.eq_of_toNat_eq
  rw [splitSub, BitVec.toNat_and, hmask, Nat.and_two_pow_sub_one_eq_mod, toNat_pack hg hs, Nat.add_comm,
    Nat.add_mul_mod_self_right, Nat.mod_eq_of_lt (lt_of_le_maxSub hs)]

end

/-! ### The statements -/

/-- Settles O14: row by row. -/
theorem groupingModeTable : Obligations.GroupingModeTable :=
  ⟨rfl, fun _ => ⟨rfl, rfl, rfl⟩⟩

/-- Settles O15: the packed value is a sum, which fits four bits. -/
theorem packValue : Obligations.PackValue :=
  fun _ _ _ hg hs => ⟨rfl, toNat_pack hg hs, toNat_pack_le hg hs⟩

/-- Settles O17: quotient and remainder of the packed value. -/
theorem splitInvertsPack : Obligations.SplitInvertsPack :=
  ⟨fun _ _ => ⟨rfl, rfl⟩, fun _ _ _ hg hs => ⟨splitGroup_pack hg hs, splitSub_pack hg hs⟩⟩

end Sys2Proof.Proofs
end

section
/-! SUPPORT. The four bank operations as one (41_bank_ops.md R105, R106): each writes one bit of `EN` or of `PEND`, and two
such writes commute unless they write different values to the same bit. -/

namespace Sys2Proof.Proofs

open Sys2Proof Sys2Proof.Machine Sys2Proof.Laws

/-! ### One bit of a 96-line vector written -/

/-- The vector with the bit of line `n` set or cleared, where `on`; else as it was. -/
def writeLine (on set : Bool) (n : Nat) (v : Lines) : Lines :=
  match on, set with
  | false, _ => v
  | true, true => v ||| BitVec.twoPow 96 n
  | true, false => v &&& ~~~(BitVec.twoPow 96 n)

theorem getLsbD_writeLine (on set : Bool) {n : Nat} (hn : n < 96) (v : Lines) {i : Nat} (hi : i < 96) :
    (writeLine on set n v).getLsbD i = if on = true ∧ i = n then set else v.getLsbD i := by
  cases on with
  | false => simp [writeLine]
  | true =>
    cases set with
    | true => rw [writeLine, getLsbD_set v hn]; by_cases h : i = n <;> simp [h]
    | false => rw [writeLine, getLsbD_clear v hn hi]; by_cases h : i = n <;> simp [h]

/-- Two writes commute, unless they write different values to the same bit. -/
theorem writeLine_comm (on on' : Bool) {a b : Bool} {n m : Nat} (hn : n < 96) (hm : m < 96) (h : n ≠ m ∨ a = b)
    (v : Lines) : writeLine on a n (writeLine on' b m v) = writeLine on' b m (writeLine on a n v) := by
  apply BitVec.eq_of_getLsbD_eq
  intro i hi
  simp only [getLsbD_writeLine _ _ hn _ hi, getLsbD_writeLine _ _ hm _ hi]
  split_ifs with hin him
  · exact h.resolve_left fun hne => hne (hin.2.symm.trans him.2)
  all_goals rfl

/-! ### The operations, by the vector they write and the value -/

/-- The bank operation that writes `set` to a bit of `PEND`, or of `EN`. -/
def bankOp (onPend set : Bool) : Word → Instr :=
  match onPend, set with
  | false, true => .enableIRQ
  | false, false => .disableIRQ
  | true, true => .setPendingIRQ
  | true, false => .clearPendingIRQ

theorem mem_bankOps {op : Word → Instr}
    (h : op ∈ [Instr.enableIRQ, .disableIRQ, .setPendingIRQ, .clearPendingIRQ]) : ∃ p b, op = bankOp p b := by
  simp only [List.mem_cons, List.not_mem_nil, or_false] at h
  rcases h with rfl | rfl | rfl | rfl
  exacts [⟨false, true, rfl⟩, ⟨false, false, rfl⟩, ⟨true, true, rfl⟩, ⟨true, false, rfl⟩]

/-- The operation tells the value that it writes. -/
theorem bankOp_inj {p b p' b' : Bool} (h : bankOp p b = bankOp p' b') : b = b' := by
  have h0 := congrFun h 0#32
  cases p <;> cases b <;> cases p' <;> cases b' <;> simp [bankOp] at h0 ⊢

/-- What each of the four operations leaves, for an id that passes its check. -/
theorem exec_bankOp {s : State} (hl : s.cfg.legal = true) (p b : Bool) {id : Word} (hid : id.toNat < 96) :
    ∃ t, exec (bankOp p b id) s = .next t ∧ t.cfg = s.cfg ∧ t.en = writeLine (!p) b id.toNat s.en ∧
      t.pend = writeLine p b id.toNat s.pend ∧ t.pri = s.pri ∧ t.scr = s.scr ∧
      ∃ d, t.me.responses = s.me.responses ++ [⟨true, false, d⟩] := by
  cases p <;> cases b
  · exact ⟨_, exec_disableIRQ hl hid, rfl, rfl, rfl, rfl, rfl, _, respondOk_me_responses _⟩
  · exact ⟨_, exec_enableIRQ hl hid, rfl, rfl, rfl, rfl, rfl, _, respondOk_me_responses _⟩
  · exact ⟨_, exec_clearPendingIRQ hl hid, rfl, rfl, rfl, rfl, rfl, _, respondOk_me_responses _⟩
  · exact ⟨_, exec_setPendingIRQ hl hid, rfl, rfl, rfl, rfl, rfl, _, respondOk_me_responses _⟩

/-! ### Executions in a row -/

theorem execAll_cons {i : Instr} {s t : State} (h : exec i s = .next t) (rest : List Instr) :
    execAll (i :: rest) s = execAll rest t := by
  simp only [execAll, h]

theorem execAll_pair {i j : Instr} {s t u : State} (h : exec i s = .next t) (h' : exec j t = .next u) :
    execAll [i, j] s = .next u :=
  (execAll_cons h [j]).trans (execAll_cons h' [])

/-- The bit just written to `PEND` is the one that `GetPendingIRQ` answers. -/
theorem execAll_write_then_get {s : State} (hl : s.cfg.legal = true) (b : Bool) {id : Word} (hid : id.toNat < 96) :
    ∃ t d, execAll [bankOp true b id, .getPendingIRQ id true] s = .next t ∧
      t.me.responses = s.me.responses ++ [⟨true, false, d⟩, ⟨true, true, if b then 1#32 else 0#32⟩] := by
  obtain ⟨t, ht, hcfg, -, hpend, -, -, d, hd⟩ := exec_bankOp hl true b hid
  have hbit : t.pend.getLsbD id.toNat = b := by
    rw [hpend, getLsbD_writeLine true b hid _ hid, if_pos ⟨rfl, rfl⟩]
  have hget := exec_getPendingIRQ (hcfg ▸ hl) hid
  rw [hbit, setWidth_ofBool] at hget
  refine ⟨_, d, execAll_pair ht hget, ?_⟩
  rw [respondData_me_responses, hd, List.append_assoc]
  rfl

/-! ### The statements -/

/-- Settles O27: each law follows the bit that the first operation wrote through the second. -/
theorem bankOperationLaws : Obligations.BankOperationLaws := by
  refine fun s id hl => ⟨fun hid => ⟨?disabled, ?pending, ?cleared, ?twice⟩, fun hid ov i hi => ?fails⟩
  case disabled =>
    obtain ⟨t, ht, hcfg, -, -, -, -, d, hd⟩ := exec_bankOp hl false true hid
    obtain ⟨u, hu, -, hen, -, -, -, d', hd'⟩ := exec_bankOp (hcfg ▸ hl) false false hid
    refine ⟨u, d, d', execAll_pair ht hu, ?_, by rw [hd', hd, List.append_assoc]; rfl⟩
    rw [hen, getLsbD_writeLine _ _ hid _ hid, if_pos ⟨rfl, rfl⟩]
  case pending => exact execAll_write_then_get hl true hid
  case cleared => exact execAll_write_then_get hl false hid
  case twice =>
    have h := exec_enableIRQ hl hid
    have h' := exec_enableIRQ (s := respondOk { s with en := s.en ||| BitVec.twoPow 96 id.toNat }) hl hid
    exact ⟨_, _, execAll_cons h [], execAll_pair h h', or_or_self_right s.en _, rfl, rfl, rfl⟩
  case fails =>
    have hfail : firstFailure s.cfg i = some .idRange ∧ isPrioSet i = false := by
      simp only [List.mem_cons, List.not_mem_nil, or_false] at hi
      rcases hi with rfl | rfl | rfl | rfl | rfl <;> exact ⟨if_neg (idBankOK_false hid), rfl⟩
    obtain ⟨t, ht, hkept, -, hans, -⟩ := exec_failed_of_firstFailure hfail.1 hfail.2
    exact ⟨t, ht, hkept, hans⟩

/-- Settles O28: each operation writes one bit, and of `EN` and `PEND` the two writes leave the same in either order. -/
theorem bankOperationsNeverCorrupt : Obligations.BankOperationsNeverCorrupt := by
  intro s r r' id id' op hop op' hop' hl hid hid' h
  obtain ⟨p, b, rfl⟩ := mem_bankOps hop
  obtain ⟨p', b', rfl⟩ := mem_bankOps hop'
  have hvalue : id.toNat ≠ id'.toNat ∨ b = b' :=
    h.imp (fun hne he => hne (BitVec.eq_of_toNat_eq he)) bankOp_inj
  obtain ⟨t, ht, htc, hten, htpend, htpri, htscr, -⟩ := exec_bankOp (s := { s with cur := r }) hl p b hid
  obtain ⟨t', ht', -, hten', htpend', htpri', htscr', -⟩ :=
    exec_bankOp (s := { t with cur := r' }) (htc ▸ hl) p' b' hid'
  obtain ⟨u, hu, huc, huen, hupend, hupri, huscr, -⟩ := exec_bankOp (s := { s with cur := r' }) hl p' b' hid'
  obtain ⟨u', hu', -, huen', hupend', hupri', huscr', -⟩ :=
    exec_bankOp (s := { u with cur := r }) (huc ▸ hl) p b hid
  refine ⟨t, t', u, u', ht, ht', hu, hu', ⟨?en, ?pend, ?pri, ?scr⟩, fun i hi hne => ⟨?enBit, ?pendBit⟩⟩
  case en => rw [huen', huen, hten', hten]; exact writeLine_comm _ _ hid hid' hvalue s.en
  case pend => rw [hupend', hupend, htpend', htpend]; exact writeLine_comm _ _ hid hid' hvalue s.pend
  case pri => rw [hupri', hupri, htpri', htpri]
  case scr => rw [huscr', huscr, htscr', htscr]
  case enBit => rw [hten, getLsbD_writeLine _ _ hid _ hi, if_neg fun h => hne h.2]
  case pendBit => rw [htpend, getLsbD_writeLine _ _ hid _ hi, if_neg fun h => hne h.2]

end Sys2Proof.Proofs
end

section
/-! SUPPORT. What a priority set leaves for later readers and writers of its word (42_priority_ops.md R126, R130, R131;
70_reset_and_hazards.md R180). -/

namespace Sys2Proof.Proofs

open Sys2Proof Sys2Proof.Machine Sys2Proof.Laws

/-! ### The read of a word that stays as it was left -/

/-- A priority set without interruption, as one execution after another. -/
theorem execAll_threePhases {s : State} {i : Instr} {id : Word} {byte : Byte} {enc : Word} (hl : s.cfg.legal = true)
    (hwf : PriWf s) (hn : s.me.inflight = none) (ha : prioArgs s.cfg i = some (id, byte, enc)) :
    ∃ t, execAll (threePhases i) s = .next t ∧ AnsweredOk s t none ∧
      t.priByte (slot s.cfg.prioIndexMode id) = byte := by
  obtain ⟨s1, s2, t, h1, h2, h3, hbyte, -, -, -, -, -, hans⟩ := exec_three_phases hl hwf hn ha
  refine ⟨t, ?_, hans, by rw [hbyte, if_pos rfl]⟩
  exact (execAll_cons h1 [i, i]).trans (execAll_pair h2 h3)

/-- The slot of an id is a lane of its word. -/
theorem priByte_slot (s : State) (m : PrioIndexMode) (id : Word) :
    s.priByte (slot m id) = laneOf (s.priWord (pword id)) (plane m id) :=
  (laneOf_priWord s (pword id) (plane m id)).symm

theorem fromField_nibble (n : BitVec 4) : fromField (n ++ 0#4) = n.setWidth 32 := by
  revert n; decide

/-- `GetPriority` answers the nibble of its slot, in any later state whose word is as the earlier state left it. -/
theorem exec_getPriority_of_word {t u : State} (hl : u.cfg.legal = true) {id : Word} (hid : id.toNat < u.cfg.numIrq)
    {n : BitVec 4} (hbyte : t.priByte (slot u.cfg.prioIndexMode id) = n ++ 0#4)
    (hword : u.priWord (pword id) = t.priWord (pword id)) :
    ∃ v, exec (.getPriority id true) u = .next v ∧ AnsweredData u v (n.setWidth 32) := by
  have hexec := exec_getPriority hl hid
  rw [priByte_slot, hword, ← priByte_slot, hbyte, fromField_nibble] at hexec
  exact ⟨_, hexec, answeredData_respondData u _⟩

/-- The low nibble of a word, read back at its width. -/
theorem toNat_lowNibble (x : Word) : ((x.extractLsb' 0 4).setWidth 32).toNat = x.toNat % 16 := by
  rw [BitVec.toNat_setWidth_of_le (by decide), BitVec.extractLsb'_toNat, Nat.shiftRight_zero]

theorem lowNibble_eq_iff (x : Word) : (x.extractLsb' 0 4).setWidth 32 = x ↔ x.toNat ≤ 15 := by
  rw [← BitVec.toNat_inj, toNat_lowNibble]
  omega

/-! ### The statements -/

/-- Settles O33: the packed value fits the nibble, and in `Faithful` mode the ids of the word share the slot. -/
theorem groupedRoundTrip : Obligations.GroupedRoundTrip := by
  intro s id g sub hl hwf hn hg hsub hid
  obtain ⟨t, ht, hans, hbyte⟩ := execAll_threePhases hl hwf hn (prioArgs_setPriorityGrouped hg hsub hid)
  have hpack := (lowNibble_eq_iff (pack s.cfg.mode g sub)).2 (toNat_pack_le hg hsub)
  have reads : ∀ u : State, u.cfg = s.cfg → u.priWord (pword id) = t.priWord (pword id) → ∀ id' : Word,
      id'.toNat < s.cfg.numIrq → pword id' = pword id →
      slot s.cfg.prioIndexMode id' = slot s.cfg.prioIndexMode id →
      ∃ v, exec (.getPriority id' true) u = .next v ∧ AnsweredData u v (pack s.cfg.mode g sub) := by
    intro u hcfg hword id' hid' hp hslot
    have := exec_getPriority_of_word (t := t) (u := u) (hcfg ▸ hl) (hcfg ▸ hid') (by rw [hcfg, hslot, hbyte])
      (by rw [hp, hword])
    rwa [hpack] at this
  refine ⟨t, ht, hans, fun u hcfg hword => ⟨reads u hcfg hword id hid rfl rfl, fun hm id' hdiv hid' => ?_⟩⟩
  exact reads u hcfg hword id' hid' hdiv (by rw [hm, slot_faithful, slot_faithful, hdiv])

/-- Settles O34: the slot holds the operand's low nibble. -/
theorem rawRoundTrip : Obligations.RawRoundTrip := by
  intro s id p hl hwf hn hid hp
  obtain ⟨t, ht, hans, hbyte⟩ := execAll_threePhases hl hwf hn (prioArgs_setPriorityRaw hid hp)
  refine ⟨t, ht, hans, fun u hcfg hword => ?_⟩
  obtain ⟨v, hv, hdata⟩ := exec_getPriority_of_word (t := t) (u := u) (hcfg ▸ hl) (hcfg ▸ hid) (hcfg ▸ hbyte) hword
  exact ⟨v, _, hv, hdata, toNat_lowNibble p, lowNibble_eq_iff p⟩

/-- A lane of the record's word after its `P2`: its own byte in its lane, its copy in the others. -/
theorem priByte_afterP2 {s : State} (hwf : PriWf s) {p : PrioSet} (hw : p.w < priWords s.cfg) (l : Fin 4) :
    (afterP2 s p).priByte (4 * p.w + l.val) = (if l = p.lane then p.byte else laneOf p.c l) &&& 0xF0#8 := by
  have h := priByte_set_lane hwf hw (mergeLane p.c p.lane p.byte &&& 0xF0F0F0F0#32) l
  rw [laneOf_masked, laneOf_mergeLane] at h
  exact h

/-- Settles O55: `a` writes its whole copy back, and the lane of `b` in it is from before `b`'s write. -/
theorem interleavedUpdateIsLost : Obligations.InterleavedUpdateIsLost := by
  intro s a b i j pa pb hl hwf hab hi hj hpa hpb hna hnb hw hsame hlane
  have hexecB := exec_of_phaseStep (s := { s with cur := b }) hl (.p2 pb hj hpb hnb (hsame ▸ hw))
  have hkeep : (afterP2 { s with cur := b } pb).requester a = s.requester a := setInflight_requester_other _ _ hab
  have hexecA := exec_of_phaseStep (s := { afterP2 { s with cur := b } pb with cur := a }) hl
    (.p2 pa hi ((congrArg Requester.inflight hkeep).trans hpa) hna hw)
  have hwf' : PriWf (afterP2 { s with cur := b } pb) := priWf_setPriWord hwf _ _
  have hb := priByte_afterP2 (s := { s with cur := b }) hwf (hsame ▸ hw) pb.lane
  have ha := priByte_afterP2 (s := { afterP2 { s with cur := b } pb with cur := a }) hwf' hw
  refine ⟨_, _, hexecB, hexecA, hb.trans (by rw [if_pos rfl]), ?_, (ha pa.lane).trans (by rw [if_pos rfl])⟩
  rw [hsame]
  exact (ha pb.lane).trans (by rw [if_neg hlane])

end Sys2Proof.Proofs
end

section
/-! SUPPORT. The verdict of a request (40_dispatcher.md R79 to R82, R87), and the reset values of the switch
(70_reset_and_hazards.md R174). -/

namespace Sys2Proof.Proofs

open Sys2Proof Sys2Proof.Machine Sys2Proof.Laws

/-! ### Which phases answer not-ok -/

/-- A requester that receives an ok response is not answered not-ok. -/
theorem not_answeredNotOk_of_status {s t : State} {x : Option PrioSet} {resp : Response} (hresp : resp.status = true)
    (ht : t.requester s.cur = s.me.receive resp x) : ¬ AnsweredNotOk s t := by
  rintro ⟨⟨d, hd⟩, -⟩
  have := congrArg Requester.responses (ht.symm.trans hd)
  obtain rfl : resp = ⟨false, false, d⟩ := by simpa [Requester.receive] using this
  cases hresp

/-- A requester whose responses are as before is not answered. -/
theorem not_answeredNotOk_of_responses {s t : State} (ht : (t.requester s.cur).responses = s.me.responses) :
    ¬ AnsweredNotOk s t := by
  rintro ⟨⟨d, hd⟩, -⟩
  rw [hd] at ht
  simp at ht

/-- A phase that answers not-ok is that of a request with a failing check. -/
theorem firstFailure_of_answeredNotOk {s t : State} {i : Instr} (h : PhaseStep s i t) (ha : AnsweredNotOk s t) :
    firstFailure s.cfg i ≠ none := by
  cases h with
  | fail k hk hn => simp [hk]
  | enable | disable | setPend | clearPend =>
    exact absurd ha (not_answeredNotOk_of_status rfl (respondOk_requester_cur _))
  | getPend | getPrio => exact absurd ha (not_answeredNotOk_of_status rfl (respondData_requester_cur s _))
  | p1 | p2 =>
    exact absurd ha
      (not_answeredNotOk_of_responses ((congrArg Requester.responses (setInflight_requester_cur _ _)).trans rfl))
  | p3 => exact absurd ha (not_answeredNotOk_of_status rfl (respondOkClearing_requester_cur _))

theorem answeredNotOk_iff {s : State} {i : Instr} (hl : s.cfg.legal = true) (hn : s.me.inflight = none) :
    (∃ t, exec i s = .next t ∧ AnsweredNotOk s t) ↔ firstFailure s.cfg i ≠ none := by
  constructor
  · rintro ⟨t, ht, ha⟩
    exact firstFailure_of_answeredNotOk (exec_next hl (by simp [hn]) ht) ha
  · intro h
    obtain ⟨k, hk⟩ := Option.ne_none_iff_exists'.1 h
    exact ⟨_, exec_of_firstFailure hk (.inl hn), answeredNotOk_failWith s k⟩

/-! ### The reset values of the switch (R174) -/

theorem effective_of_switch_on {cfg : Config} (h : cfg.assumeCortexMReset = true) (d : ResetDraw) :
    d.effective cfg = ResetDraw.cortexM :=
  if_pos h

/-- With no nibble drawn every byte of the file is zero, those that do not exist too. -/
theorem resetFrom_priByte_of_switch_on {cfg : Config} (h : cfg.assumeCortexMReset = true) (d : ResetDraw) (k : Nat) :
    (State.resetFrom cfg d).priByte k = 0#8 := by
  have hbyte : ∀ j : Nat, (ResetDraw.cortexM.nibbles.getD j 0#4) ++ 0#4 = 0#8 := fun j => by
    rw [show ResetDraw.cortexM.nibbles = [] from rfl, List.getD_nil]
    rfl
  simp only [State.priByte, State.resetFrom, effective_of_switch_on h, hbyte, List.map_const']
  rw [List.getD_eq_getElem?_getD, List.getElem?_replicate]
  split <;> rfl

/-! ### The statements -/

/-- Settles O35: not-ok answers are those of failing checks, which are the negations of R80's predicates. -/
theorem verdictIsValidation : Obligations.VerdictIsValidation :=
  fun s i hl hn => (answeredNotOk_iff hl hn).trans (not_congr (firstFailure_none s.cfg i))

/-- Settles O36: the phase is `FAIL` of the first failing check's kind. -/
theorem failingRequestChangesNothing : Obligations.FailingRequestChangesNothing := by
  intro s i k hk hn
  refine ⟨_, exec_of_firstFailure hk hn, failed_failWith s k, ?_⟩
  exact (congrArg Requester.out (failWith_requester_cur s k)).trans rfl

/-- Settles O38: the step of a requester whose outstanding request decodes. -/
theorem stepRunsDecodedRequest : Obligations.StepRunsDecodedRequest :=
  fun _ _ _ _ _ hl htr hq hd _ => step_of_decoded hl htr hq hd

/-- Settles O45: the switch's own draws stand for those given. -/
theorem cortexMResetSwitch : Obligations.CortexMResetSwitch := by
  refine ⟨rfl, fun cfg d h => ?_⟩
  have hd := effective_of_switch_on h d
  have hscr : (State.resetFrom cfg d).scr = 0xFA050000#32 := congrArg ResetDraw.scr hd
  refine ⟨congrArg ResetDraw.en hd, congrArg ResetDraw.pend hd, resetFrom_priByte_of_switch_on h d, hscr, ?_⟩
  rw [hscr]
  rfl

end Sys2Proof.Proofs
end

section
/-! SUPPORT. The recorded kind is never read (60_exceptions.md R141). This is said of every state, legal or not, so it is
followed through each operation: what the two runs answer is the same but for the field `diag`. -/

namespace Sys2Proof.Proofs

open Sys2Proof Sys2Proof.Machine Sys2Proof.Laws

/-! ### Outcomes that differ at most in the recorded kind -/

/-- The state with the kind `d` recorded. -/
def withDiag (d : Option ErrKind) (s : State) : State :=
  { s with diag := d }

/-- The two outcomes are the same but for the recorded kind. -/
def SameButDiag (o o' : Result) : Prop :=
  match o, o' with
  | .next t, .next t' => withDiag none t = withDiag none t'
  | .fault f, .fault f' => f = f'
  | .refused x, .refused x' => x = x'
  | _, _ => False

theorem SameButDiag.refl (o : Result) : SameButDiag o o := by
  cases o <;> rfl

section
variable (d : Option ErrKind) (s : State)

theorem writeReg_withDiag (v : Word) (c : Csr) : writeReg (withDiag d s) v c = withDiag d (writeReg s v c) := by
  cases c <;> rfl

theorem readReg_withDiag (x : Word) (c : Csr) : readReg (withDiag d s) x c = readReg s x c := by
  cases c <;> rfl

/-! ### The accesses -/

/-- A read access answers the same value, or the same fault. -/
theorem loadCsr_withDiag (a : Nat) {k k' : Word → Result} (hk : ∀ v, SameButDiag (k v) (k' v)) :
    SameButDiag (loadCsr a s k) (loadCsr a (withDiag d s) k') := by
  have hread : csrRead (withDiag d s) a (Config.freeScrRead (withDiag d s).draws) =
      csrRead s a (Config.freeScrRead s.draws) :=
    congrArg (fun f => (csrAt s.cfg a).map f) (funext (readReg_withDiag d s _))
  simp only [loadCsr, hread]
  cases csrRead s a (Config.freeScrRead s.draws) with
  | none => exact .refl _
  | some v => exact hk v

/-- A write access does the same to the registers, or faults the same. -/
theorem storeCsr_withDiag (a : Nat) (v : Word) {k : State → Result} (hk : ∀ t, SameButDiag (k t) (k (withDiag d t))) :
    SameButDiag (storeCsr a v s k) (storeCsr a v (withDiag d s) k) := by
  have hwrite : csrWrite (withDiag d s) a v = (csrWrite s a v).map (withDiag d) := by
    change (csrAt s.cfg a).map (writeReg (withDiag d s) v) = _
    rw [csrWrite, Option.map_map]
    exact congrArg (fun f => (csrAt s.cfg a).map f) (funext (writeReg_withDiag d s v))
  simp only [storeCsr, hwrite]
  cases csrWrite s a v with
  | none => exact .refl _
  | some t => exact hk t

/-! ### The operations -/

/-- A checked operation, whose `FAIL` records its own kind. -/
theorem checked_withDiag (b : Bool) (k : ErrKind) {m m' : Result} (hm : SameButDiag m m') :
    SameButDiag (if b then m else .next (failWith k s)) (if b then m' else .next (failWith k (withDiag d s))) := by
  cases b with
  | true => exact hm
  | false => rfl

theorem bankWrite_withDiag (addr : Config → Nat → Nat) (id : Word) :
    SameButDiag (bankWrite addr id s) (bankWrite addr id (withDiag d s)) :=
  checked_withDiag d s _ _ (storeCsr_withDiag d s _ _ fun _ => rfl)

theorem prioBegin_withDiag (id : Word) (byte : Byte) (enc : Word) :
    SameButDiag (prioBegin id byte enc s) (prioBegin id byte enc (withDiag d s)) :=
  loadCsr_withDiag d s _ fun _ => rfl

theorem prioContinue_withDiag (p : PrioSet) : SameButDiag (prioContinue p s) (prioContinue p (withDiag d s)) := by
  simp only [prioContinue]
  split
  · exact storeCsr_withDiag d s _ _ fun _ => rfl
  · exact storeCsr_withDiag d s _ _ fun _ => rfl

/-- A priority set goes on with its record, or begins as `m` does. -/
theorem prioSet_withDiag {m m' : Result} (hm : SameButDiag m m') :
    SameButDiag (match s.me.inflight with | some r => prioContinue r s | none => m)
      (match s.me.inflight with | some r => prioContinue r (withDiag d s) | none => m') := by
  cases s.me.inflight with
  | none => exact hm
  | some r => exact prioContinue_withDiag d s r

theorem exec_withDiag (i : Instr) : SameButDiag (exec i s) (exec i (withDiag d s)) := by
  cases i with
  | enableIRQ id => exact bankWrite_withDiag d s iserAddr id
  | disableIRQ id => exact bankWrite_withDiag d s icerAddr id
  | setPendingIRQ id => exact bankWrite_withDiag d s isprAddr id
  | clearPendingIRQ id => exact bankWrite_withDiag d s icprAddr id
  | getPendingIRQ id ov =>
    exact checked_withDiag d s _ _ (checked_withDiag d s _ _ (loadCsr_withDiag d s _ fun _ => rfl))
  | getPriority id ov =>
    exact checked_withDiag d s _ _ (checked_withDiag d s _ _ (loadCsr_withDiag d s _ fun _ => rfl))
  | setPriorityRaw id p =>
    exact prioSet_withDiag d s
      (checked_withDiag d s _ _ (checked_withDiag d s _ _ (prioBegin_withDiag d s _ _ _)))
  | setPriorityGrouped id g sub =>
    exact prioSet_withDiag d s
      (checked_withDiag d s _ _ (checked_withDiag d s _ _ (prioBegin_withDiag d s _ _ _)))

/-! ### The step -/

theorem runPhase_withDiag : SameButDiag (runPhase s) (runPhase (withDiag d s)) := by
  have hout : (withDiag d s).outstanding = s.outstanding := rfl
  cases hq : s.outstanding with
  | none => simp only [runPhase, hout, hq]; rfl
  | some q =>
    cases hd : decode q with
    | error e => cases e; simp only [runPhase, hout, hq, hd]; rfl
    | ok i => simp only [runPhase, hout, hq, hd]; exact exec_withDiag d s i

theorem applyEnv_withDiag (e : EnvEvent) : applyEnv e (withDiag d s) = withDiag d (applyEnv e s) := by
  cases e <;> rfl

theorem step_withDiag : SameButDiag (step s) (step (withDiag d s)) := by
  have hcfg : (withDiag d s).cfg = s.cfg := rfl
  have hturn : (withDiag d s).turn = s.turn := rfl
  simp only [step, hcfg, hturn]
  cases s.cfg.legal with
  | false => rfl
  | true =>
    cases s.turn with
    | none => rfl
    | some u =>
      cases u with
      | env e =>
        have h := applyEnv_withDiag d { s with schedule := s.schedule.tail } e
        exact (congrArg (withDiag none) h).symm
      | run r => exact runPhase_withDiag d (s.beginRun r)

end

/-! ### The statement -/

/-- Settles O56: `SameButDiag` is the statement's comparison, outcome by outcome. -/
theorem diagnosticKindNotObservable : Obligations.DiagnosticKindNotObservable :=
  fun s d => step_withDiag d s

end Sys2Proof.Proofs
end
